-- ==== Sys2Proof/Word.lean ====
section
/-! DEFINITION. The word types of the SSS-GF256 engine (spec/00_scope.md R12, R13): a field element is a byte, a
command is one 64-bit word. -/

namespace Sys2Proof

/-- A field element or a point: "a byte value 0-255" (40_field_arithmetic.md R90). -/
abbrev Byte := BitVec 8

/-- A command word, presented whole at the command port (30_encoding.md R70, R72). -/
abbrev Word := BitVec 64

end Sys2Proof
end

