-- ==== Sys2Proof/Syntax.lean ====
section
/-! DEFINITION. The sixteen commands of SSSCMD-1 (spec/30_encoding.md R75), one constructor for each row of
spec/opcode_table.json, with the operands the row uses (R74): a field element is a byte, an entry or row index `A` is
one of 256, and `T` is an unsigned number. -/

namespace Sys2Proof

/-- A command with its operands, in the order `A`, `B`, `T` (30_encoding.md R75, R79). -/
inductive Instr where
  /-- build the Field Tables (40_field_arithmetic.md R101) -/
  | tinit
  /-- respond `add(a, b)` (40_field_arithmetic.md R102) -/
  | gfadd (a b : Byte)
  /-- respond `mul(a, b)` (40_field_arithmetic.md R103) -/
  | gfmul (a b : Byte)
  /-- respond `inv(a)` (40_field_arithmetic.md R104) -/
  | gfinv (a : Byte)
  /-- set the number of input pairs (43_host_access.md R161) -/
  | setin (n : Nat)
  /-- set the number of output pairs (43_host_access.md R162) -/
  | seton (n : Nat)
  /-- set the buffer length (43_host_access.md R163) -/
  | setln (n : Nat)
  /-- write input point `j` (43_host_access.md R164) -/
  | wrxp (j : Fin 256) (x : Byte)
  /-- write output point `i` (43_host_access.md R165) -/
  | wrzp (i : Fin 256) (z : Byte)
  /-- write the input value byte at row `j`, offset `t` (43_host_access.md R166) -/
  | wriv (j : Fin 256) (v : Byte) (t : Nat)
  /-- read the output value byte at row `i`, offset `t` (43_host_access.md R167) -/
  | rdov (i : Fin 256) (t : Nat)
  /-- run the Cross-Product Stage (41_cross_product.md R124) -/
  | xprod
  /-- read input cross product `j` (41_cross_product.md R125) -/
  | rdic (j : Fin 256)
  /-- read output cross product `i` (41_cross_product.md R126) -/
  | rdoc (i : Fin 256)
  /-- run the Interpolation Engine (42_interpolation.md R147) -/
  | interp
  /-- the source's core call: both stages as one command (42_interpolation.md R148) -/
  | transform
  deriving DecidableEq, Repr

/-- The mnemonic of a command (30_encoding.md R75). -/
def Instr.mnemonic : Instr → String
  | .tinit => "TINIT"
  | .gfadd _ _ => "GFADD"
  | .gfmul _ _ => "GFMUL"
  | .gfinv _ => "GFINV"
  | .setin _ => "SETIN"
  | .seton _ => "SETON"
  | .setln _ => "SETLN"
  | .wrxp _ _ => "WRXP"
  | .wrzp _ _ => "WRZP"
  | .wriv _ _ _ => "WRIV"
  | .rdov _ _ => "RDOV"
  | .xprod => "XPROD"
  | .rdic _ => "RDIC"
  | .rdoc _ => "RDOC"
  | .interp => "INTERP"
  | .transform => "TRANSFORM"

/-- The six commands that deliver a response byte (30_encoding.md R73). -/
def Instr.responds : Instr → Bool
  | .gfadd _ _ | .gfmul _ _ | .gfinv _ | .rdov _ _ | .rdic _ | .rdoc _ => true
  | .tinit | .setin _ | .seton _ | .setln _ | .wrxp _ _ | .wrzp _ _ | .wriv _ _ _ | .xprod | .interp
  | .transform => false

end Sys2Proof
end

