-- ==== Sys2Proof/WellFormed.lean ====
section
/-! DEFINITION. Which terms of `Instr` stand for a command word: the number `T` is an unsigned 32-bit number
(spec/30_encoding.md R71, R74). Every other operand is in range by its type. A well-formed command need not be a
defined one: `SETIN 257` is a legal word that is undefined under a reason of its own (R77). -/

namespace Sys2Proof

/-- A number that the 32-bit field `T` holds (30_encoding.md R71). -/
def fitsT (n : Nat) : Bool := decide (n < 2 ^ 32)

/-- The term stands for a command word. -/
def Instr.wf : Instr → Bool
  | .setin n => fitsT n
  | .seton n => fitsT n
  | .setln n => fitsT n
  | .wriv _ _ t => fitsT t
  | .rdov _ t => fitsT t
  | .tinit | .gfadd _ _ | .gfmul _ _ | .gfinv _ | .wrxp _ _ | .wrzp _ _ | .xprod | .rdic _ | .rdoc _ | .interp
  | .transform => true

end Sys2Proof
end

