-- ==== Sys2Proof/Decode.lean ====
section
/-! DEFINITION. The decoder and the encoder of command words (spec/30_encoding.md R70 to R77). A word is taken whole
(R72), so no byte order arises. -/

namespace Sys2Proof

/-- The five fields of a command word (30_encoding.md R71). -/
structure Fields where
  op : Byte
  a : Byte
  b : Byte
  z : Byte
  t : BitVec 32
  deriving DecidableEq, Repr

/-- The fields of `W`: `OP = W[63:56]`, `A = W[55:48]`, `B = W[47:40]`, `Z = W[39:32]`, `T = W[31:0]`
(30_encoding.md R71). -/
def Fields.ofWord (w : Word) : Fields :=
  { op := w.extractLsb' 56 8
    a := w.extractLsb' 48 8
    b := w.extractLsb' 40 8
    z := w.extractLsb' 32 8
    t := w.extractLsb' 0 32 }

/-- The word with the given fields, `OP` highest (30_encoding.md R71). -/
def Fields.toWord (f : Fields) : Word := f.op ++ f.a ++ f.b ++ f.z ++ f.t

/-- Why a word is reserved (30_encoding.md R77). -/
inductive Rejection where
  /-- `OP` is not in the opcode map -/
  | unlistedOpcode
  /-- `Z` is not zero -/
  | reservedFieldNonzero
  /-- a field the command does not use is not zero -/
  | unusedFieldNonzero
  deriving DecidableEq, Repr

/-- One row of the opcode map (30_encoding.md R75): the opcode, the fields that carry an operand, and the command. -/
structure OpcodeRow where
  op : Byte
  usesA : Bool
  usesB : Bool
  usesT : Bool
  command : Fields → Instr

/-- The opcode map (30_encoding.md R75). -/
def opcodeMap : List OpcodeRow :=
  [ ⟨0x01, false, false, false, fun _ => .tinit⟩,
    ⟨0x10, true, true, false, fun f => .gfadd f.a f.b⟩,
    ⟨0x11, true, true, false, fun f => .gfmul f.a f.b⟩,
    ⟨0x12, true, false, false, fun f => .gfinv f.a⟩,
    ⟨0x20, false, false, true, fun f => .setin f.t.toNat⟩,
    ⟨0x21, false, false, true, fun f => .seton f.t.toNat⟩,
    ⟨0x22, false, false, true, fun f => .setln f.t.toNat⟩,
    ⟨0x23, true, true, false, fun f => .wrxp f.a.toFin f.b⟩,
    ⟨0x24, true, true, false, fun f => .wrzp f.a.toFin f.b⟩,
    ⟨0x25, true, true, true, fun f => .wriv f.a.toFin f.b f.t.toNat⟩,
    ⟨0x26, true, false, true, fun f => .rdov f.a.toFin f.t.toNat⟩,
    ⟨0x30, false, false, false, fun _ => .xprod⟩,
    ⟨0x31, true, false, false, fun f => .rdic f.a.toFin⟩,
    ⟨0x32, true, false, false, fun f => .rdoc f.a.toFin⟩,
    ⟨0x40, false, false, false, fun _ => .interp⟩,
    ⟨0x41, false, false, false, fun _ => .transform⟩ ]

/-- Every field that the row does not use is zero (30_encoding.md R76). -/
def OpcodeRow.unusedZero (r : OpcodeRow) (f : Fields) : Bool :=
  (r.usesA || f.a == 0) && (r.usesB || f.b == 0) && (r.usesT || f.t == 0)

/-- The decoder (30_encoding.md R76): find the row of `OP`, check `Z`, check the unused fields. Total; a reserved word
(R77) is rejected by name. -/
def decode (w : Word) : Except Rejection Instr :=
  let f := Fields.ofWord w
  match opcodeMap.find? (fun r => r.op == f.op) with
  | none => .error .unlistedOpcode
  | some r =>
    if f.z ≠ 0 then .error .reservedFieldNonzero
    else if r.unusedZero f then .ok (r.command f)
    else .error .unusedFieldNonzero

/-- The fields of a command (30_encoding.md R75); the fields it does not use are zero. -/
def Instr.fields : Instr → Fields
  | .tinit => ⟨0x01, 0, 0, 0, 0⟩
  | .gfadd a b => ⟨0x10, a, b, 0, 0⟩
  | .gfmul a b => ⟨0x11, a, b, 0, 0⟩
  | .gfinv a => ⟨0x12, a, 0, 0, 0⟩
  | .setin n => ⟨0x20, 0, 0, 0, BitVec.ofNat 32 n⟩
  | .seton n => ⟨0x21, 0, 0, 0, BitVec.ofNat 32 n⟩
  | .setln n => ⟨0x22, 0, 0, 0, BitVec.ofNat 32 n⟩
  | .wrxp j x => ⟨0x23, BitVec.ofFin j, x, 0, 0⟩
  | .wrzp i z => ⟨0x24, BitVec.ofFin i, z, 0, 0⟩
  | .wriv j v t => ⟨0x25, BitVec.ofFin j, v, 0, BitVec.ofNat 32 t⟩
  | .rdov i t => ⟨0x26, BitVec.ofFin i, 0, 0, BitVec.ofNat 32 t⟩
  | .xprod => ⟨0x30, 0, 0, 0, 0⟩
  | .rdic j => ⟨0x31, BitVec.ofFin j, 0, 0, 0⟩
  | .rdoc i => ⟨0x32, BitVec.ofFin i, 0, 0, 0⟩
  | .interp => ⟨0x40, 0, 0, 0, 0⟩
  | .transform => ⟨0x41, 0, 0, 0, 0⟩

/-- The word of a well-formed command (30_encoding.md R71, R75). -/
def encode (i : Instr) : Word := i.fields.toWord

/-- The command word that `nbits` bits of `w` make; every bit above them is zero. -/
def tableWord (nbits w : Nat) : Word := BitVec.ofNat 64 (w % 2 ^ nbits)

/-- What the decoder reads from a word given as a number, its bits numbered as spec/opcode_table.json numbers them. -/
def decodeTableWord (nbits w : Nat) : Option Instr :=
  match decode (tableWord nbits w) with
  | .ok i => some i
  | .error _ => none

end Sys2Proof
end

