-- ==== Sys2Proof/Config.lean ====
section
/-! DEFINITION. What one engine fixes and the spec leaves open (spec/92_eei_decisions.md, open parameters): `LN_MAX`
and `TABLE_INIT`. They are plain data that State carries and no command writes, so that a statement about every state
holds for every value of them; `NUM_CONTEXTS` (00_scope.md R11) is the number of contexts that State holds. -/

namespace Sys2Proof

/-- `TABLE_INIT` (00_scope.md R10): whether the Field Tables are built by `TINIT` or are there from reset. -/
inductive TableInit where
  | explicit
  | static
  deriving DecidableEq, Repr

/-- The open parameters of one engine. -/
structure Params where
  /-- `LN_MAX`, the bytes in each row of the value memories, `0 <= LN_MAX <= 2^32 - 1` (00_scope.md R9). -/
  lnMax : Fin (2 ^ 32)
  /-- `TABLE_INIT` (00_scope.md R10). -/
  tableInit : TableInit
  deriving DecidableEq, Repr

/-- The parameters that `State.reset` takes. `TABLE_INIT = explicit` is the spec's own default (00_scope.md R10; log 2).
DESIGN CHOICE: `LN_MAX = 16`, for which the spec gives no default; it is the value of 95_test_vectors.md (log 1, unsafe
for a statement about `State.reset` alone). -/
def Params.default : Params := { lnMax := 16, tableInit := .explicit }

end Sys2Proof
end

