-- ==== Sys2Proof/Machine/Field.lean ====
section
/-! DEFINITION. The field (spec/40_field_arithmetic.md section 1): addition, the minimal-excludant construction of the
multiplication, a fast form of it, inversion, and the final contents of the two Field Tables. -/

namespace Sys2Proof.Machine

/-! ### Sums and addition -/

/-- `add(a, b)`: "subtraction = addition" too (40_field_arithmetic.md R91). -/
def gfAdd (a b : Byte) : Byte := a ^^^ b

/-- `XOR_{k in S}` over a list of terms; the empty sum is `0x00` (00_scope.md R15). -/
def xorSum (l : List Byte) : Byte := l.foldr gfAdd 0

/-! ### The construction of the multiplication (R92) -/

/-- `E(a, b)`: the values forced away from `mul(a, b)` by the products with smaller factors
(40_field_arithmetic.md R92). -/
def mexSet (f : Nat → Nat → Nat) (a b : Nat) : List Nat :=
  (List.range a).flatMap fun a' => (List.range b).map fun b' => f a' b ^^^ f a b' ^^^ f a' b'

/-- The smallest integer that is not in the list: among one more number than the list has members, one is missing. -/
def smallestNonMember (l : List Nat) : Nat :=
  ((List.range (l.length + 1)).find? fun n => !l.contains n).getD 0

/-- `mul(a, b)` carried out to a depth: the recursion of R92 needs depth `a + b + 1`. -/
def mexMulDepth : Nat → Nat → Nat → Nat
  | 0, _, _ => 0
  | d + 1, a, b => smallestNonMember (mexSet (mexMulDepth d) a b)

/-- `mul(a, b)` as 40_field_arithmetic.md R92 defines it: the smallest integer not in `E(a, b)`, zero allowed, every
pair avoided (the reading of 91_not_in_source.md N3; log 10). -/
def mexMul (a b : Nat) : Nat := mexMulDepth (a + b + 1) a b

/-! ### The fast form (R98) -/

/-- `mul(2^r, 2^c)`, row `r`, column `c` (the table of 40_field_arithmetic.md R98). -/
def powerProducts : List (List Nat) :=
  [ [0x01, 0x02, 0x04, 0x08, 0x10, 0x20, 0x40, 0x80],
    [0x02, 0x03, 0x08, 0x0c, 0x20, 0x30, 0x80, 0xc0],
    [0x04, 0x08, 0x06, 0x0b, 0x40, 0x80, 0x60, 0xb0],
    [0x08, 0x0c, 0x0b, 0x0d, 0x80, 0xc0, 0xb0, 0xd0],
    [0x10, 0x20, 0x40, 0x80, 0x18, 0x2c, 0x4b, 0x8d],
    [0x20, 0x30, 0x80, 0xc0, 0x2c, 0x34, 0x8d, 0xc6],
    [0x40, 0x80, 0x60, 0xb0, 0x4b, 0x8d, 0x67, 0xb9],
    [0x80, 0xc0, 0xb0, 0xd0, 0x8d, 0xc6, 0xb9, 0xde] ]

/-- The sum of the values at the one-bits of a number: the value for bit 0 first; bit `k` of `v` is
`(v div 2^k) mod 2` (00_scope.md R13). -/
def sumAtBits : List Nat → Nat → Nat
  | [], _ => 0
  | p :: ps, v => (v % 2 * p) ^^^ sumAtBits ps (v / 2)

/-- `mul(a, b)` on integers by the formula of 40_field_arithmetic.md R98: the sum over the one-bits `r` of `a` and `c`
of `b` of `mul(2^r, 2^c)`. -/
def mulByBits (a b : Nat) : Nat := sumAtBits (powerProducts.map fun row => sumAtBits row b) a

/-- `mul(a, b)` by the formula of 40_field_arithmetic.md R98. It equals the construction of R92:
`Sys2Proof.Laws.mexMul_eq_gfMul`. -/
def gfMul (a b : Byte) : Byte := BitVec.ofNat 8 (mulByBits a.toNat b.toNat)

/-! ### Inversion (R94) -/

/-- `inv(1)`, ..., `inv(255)` (the table of 40_field_arithmetic.md R99). -/
def inverses : List Byte :=
  [0x01, 0x03, 0x02, 0x0f, 0x0c, 0x09, 0x0b, 0x0a, 0x06, 0x08, 0x07, 0x05, 0x0e, 0x0d, 0x04] ++
  [0xaa, 0xa0, 0x6d, 0x6b, 0x83, 0x8b, 0x74, 0x73, 0xe4, 0xea, 0x5c, 0x59, 0x49, 0x4d, 0xdc, 0xd1] ++
  [0x55, 0xd6, 0x50, 0xdb, 0xc7, 0xb3, 0xcb, 0xb8, 0x42, 0xe2, 0x46, 0xec, 0x9c, 0xf7, 0x95, 0xf8] ++
  [0xff, 0xb6, 0xbd, 0xf0, 0x78, 0xa4, 0xae, 0x7f, 0x8e, 0x64, 0x62, 0x86, 0xc1, 0x98, 0x91, 0xcd] ++
  [0x77, 0xcf, 0x28, 0xe3, 0x70, 0xc3, 0x2a, 0xed, 0x4c, 0x1c, 0xba, 0x61, 0x48, 0x1d, 0xb1, 0x67] ++
  [0x22, 0xda, 0x68, 0xfd, 0xd7, 0x20, 0xf2, 0x6e, 0x5d, 0x1b, 0x97, 0x7b, 0x1a, 0x58, 0x7c, 0x9e] ++
  [0xbb, 0x4b, 0x3a, 0x87, 0x39, 0x8f, 0xb0, 0x4f, 0x52, 0xfc, 0x6c, 0x13, 0x6a, 0x12, 0x57, 0xf3] ++
  [0x44, 0xc2, 0x75, 0x17, 0x16, 0x72, 0xce, 0x40, 0x34, 0xa5, 0x96, 0x5b, 0x5e, 0x9f, 0xaf, 0x37] ++
  [0xee, 0x92, 0x8a, 0x14, 0xc4, 0xde, 0x3b, 0x63, 0xe0, 0x9b, 0x82, 0x15, 0xc8, 0xd3, 0x38, 0x65] ++
  [0xcc, 0x3e, 0x81, 0xef, 0xf9, 0x2e, 0x7a, 0x5a, 0x3d, 0xc0, 0xe1, 0x89, 0x2c, 0xf6, 0x5f, 0x7d] ++
  [0x11, 0xab, 0xb5, 0xd4, 0x35, 0x79, 0xf4, 0xe8, 0xbe, 0xd9, 0x10, 0xa1, 0xfb, 0xe6, 0x36, 0x7e] ++
  [0x66, 0x4e, 0xc6, 0x25, 0xd5, 0xa2, 0x31, 0xfe, 0x27, 0xca, 0x4a, 0x60, 0xf1, 0x32, 0xa8, 0xd8] ++
  [0x99, 0x3c, 0x71, 0x45, 0x84, 0xdf, 0xb2, 0x24, 0x8c, 0xd2, 0xb9, 0x26, 0x90, 0x3f, 0x76, 0x41] ++
  [0xdd, 0x1f, 0xc9, 0x8d, 0xa3, 0xb4, 0x21, 0x54, 0xbf, 0xa9, 0x51, 0x23, 0x1e, 0xd0, 0x85, 0xc5] ++
  [0x88, 0x9a, 0x29, 0x43, 0x18, 0xeb, 0xad, 0xfa, 0xa7, 0xf5, 0x19, 0xe5, 0x2b, 0x47, 0x80, 0x93] ++
  [0x33, 0xbc, 0x56, 0x6f, 0xa6, 0xe9, 0x9d, 0x2d, 0x2f, 0x94, 0xe7, 0xac, 0x69, 0x53, 0xb7, 0x30]

/-- `inv(a)`: no value at `0x00`, and elsewhere the `b` with `mul(a, b) = 1` (40_field_arithmetic.md R94;
`Sys2Proof.Laws.gfInv_spec`). -/
def gfInv (a : Byte) : Option Byte := if a = 0 then none else inverses[a.toNat - 1]?

/-! ### The Field Tables -/

/-- A multiplication table: 256 rows of 256 bytes, indexed by the integer values (10_state.md R21). -/
abbrev MulTable := Vector (Vector Byte 256) 256

/-- An inverse table: the entries 1 to 255; it has no entry 0 (10_state.md R22). -/
abbrev InvTable := Vector Byte 255

/-- The vector whose entry `i` is `f i`. -/
def tabulate {α : Type} (n : Nat) (f : Nat → α) : Vector α n :=
  ⟨⟨(List.range n).map f⟩, by simp⟩

/-- The final contents of `MULT`: `MULT[a][b] = mul(a, b)` (10_state.md R21). -/
def multTable : MulTable :=
  tabulate 256 fun a => tabulate 256 fun b => gfMul (BitVec.ofNat 8 a) (BitVec.ofNat 8 b)

/-- The final contents of `INVT`: `INVT[a] = inv(a)`, `a` from 1 to 255 (10_state.md R22). -/
def invTable : InvTable := tabulate 255 fun k => inverses.getD k 0

end Sys2Proof.Machine
end

