-- ==== Sys2Proof/Machine/State.lean ====
section
/-! DEFINITION. The state of the machine (spec/10_state.md R20), as plain data: the shared Field Tables, the contexts,
and the hosts' pending command words. The faults and refusals of a step. The state after reset. -/

namespace Sys2Proof.Machine

/-! ### Why a step stops -/

/-- `raise Undefined(reason)` (spec/60_exceptions.md R184, R185): the command has no next state and no response. Every
one is SAFE: the engine does something there, and nothing can be proved through it. `U_ALIAS` is "none in this
hardware" (R185). A meaning answers it as its outcome, `step` records it in the context whose command it was, and the
machine's step answers it only when no context is left to go on (log 8). -/
inductive Fault where
  /-- `U_ILLEGAL_CMD`: the word is reserved (30_encoding.md R77). Raised by `step`. Safe. -/
  | illegalCmd
  /-- `U_TABLES_NOT_READY`: `TRDY = 0` (10_state.md R23). Raised by GFADD, GFMUL, GFINV, XPROD, INTERP, TRANSFORM. Safe. -/
  | tablesNotReady
  /-- `U_INV_ZERO`: `inv(0x00)` (40_field_arithmetic.md R94). Raised by GFINV with `A = 0`. Safe. -/
  | invZero
  /-- `U_COUNT_RANGE`: a count above 256 (43_host_access.md R161, R162). Raised by SETIN, SETON. Safe. -/
  | countRange
  /-- `U_LEN_RANGE`: a length above `LN_MAX` or an offset at or above it (43_host_access.md R163, R166, R167). Raised by
  SETLN, WRIV, RDOV. Safe. -/
  | lenRange
  /-- `U_IN_ZERO`: `IN = 0` (41_cross_product.md R123). Raised by XPROD, TRANSFORM. Safe. -/
  | inZero
  /-- `U_DUP_POINT`: two equal input points (41_cross_product.md R123). Raised by XPROD, TRANSFORM. Safe. -/
  | dupPoint
  /-- `U_STALE_CROSS`: `XV = 0` (10_state.md R27). Raised by INTERP. Safe. -/
  | staleCross
  /-- `U_UNWRITTEN`: "A pseudocode read of an unwritten location is `raise Undefined(U_UNWRITTEN)`" (00_scope.md R17;
  60_exceptions.md R185; 93_implementation_defined.md U7, U9, U14, U15). Raised by XPROD, INTERP, TRANSFORM, RDOV, RDIC,
  RDOC. Safe. -/
  | unwritten
  deriving DecidableEq, Repr

/-- A move the machine does not have. -/
inductive Refusal where
  /-- An instruction that `exec` gives no meaning. No arm answers it in this model. Safe. -/
  | notModelled (mnemonic : String)
  /-- The issue list names a port that no context has (60_exceptions.md R195: one command port for each context; log 15).
  Raised by `step`. Safe. -/
  | noSuchPort
  deriving DecidableEq, Repr

/-! ### Locations and memories -/

/-- A location: "Every register, register-file entry and memory byte is either *written* ... or *unwritten*"
(00_scope.md R17; 10_state.md R37). `unwritten` is the value 10_state.md R39 gives at reset (log 4). -/
inductive Loc (α : Type) where
  | unwritten
  | written (v : α)
  deriving DecidableEq, Repr

/-- A register file of 256 one-byte entries (10_state.md R42). -/
abbrev RegFile := Vector (Loc Byte) 256

/-- A value memory: its written bytes as (key, byte) pairs, keys strictly rising (`Memory.wf`); a key that is not
listed is unwritten (20_memory.md R50; 10_state.md R39; log 9). -/
abbrev Memory := List Host.Cell

/-! ### Contexts and the machine -/

/-- The state of one context (10_state.md R20; 60_exceptions.md R195). -/
structure Context where
  /-- number of input pairs, 9 bits (10_state.md R24) -/
  IN : Loc (BitVec 9)
  /-- number of output pairs, 9 bits (10_state.md R25) -/
  ON : Loc (BitVec 9)
  /-- length of every value buffer, 32 bits (10_state.md R26) -/
  LN : Loc (BitVec 32)
  /-- cross products valid (10_state.md R27) -/
  XV : Bool
  /-- input points (10_state.md R29) -/
  XP : RegFile
  /-- output points (10_state.md R30) -/
  ZP : RegFile
  /-- input value memory (10_state.md R31) -/
  IVM : Memory
  /-- output value memory (10_state.md R32) -/
  OVM : Memory
  /-- input cross products (10_state.md R33) -/
  ICR : RegFile
  /-- output cross products (10_state.md R34) -/
  OCR : RegFile
  /-- the model's own: the response trace, the bytes delivered on the response port so far (30_encoding.md R73, R83;
  log 6). No command reads it. -/
  trace : List Byte
  /-- the model's own: the fault that the context's run stopped with, if it did: "the run stops there as *faulted*", and
  "the fault, once recorded, is never cleared" (60_exceptions.md R184; log 8). The hardware records nothing (R180), and
  no command reads it. -/
  fault : Option Fault
  deriving DecidableEq, Repr

/-- The machine. -/
structure State where
  /-- the model's own: the open parameters; no command writes them (log 1, 2) -/
  params : Params
  /-- multiplication table, shared (10_state.md R21); written or unwritten as a whole (log 11) -/
  MULT : Loc MulTable
  /-- inverse table, shared (10_state.md R22); written or unwritten as a whole (log 11) -/
  INVT : Loc InvTable
  /-- tables ready, shared (10_state.md R23) -/
  TRDY : Bool
  /-- the contexts at the ports below the one served (60_exceptions.md R195; log 3) -/
  before : List Context
  /-- the context whose command is being performed -/
  ctx : Context
  /-- the contexts at the ports above the one served -/
  after : List Context
  /-- the model's own: the command words the hosts will issue, in order of issue, each with its port (30_encoding.md
  R72, R83; log 5) -/
  issue : List (Nat × Word)
  deriving DecidableEq, Repr

/-! ### Reset -/

/-- A context after reset (10_state.md R39): everything unwritten, `XV = 0`. -/
def Context.reset : Context :=
  { IN := .unwritten, ON := .unwritten, LN := .unwritten, XV := false
    XP := Vector.replicate 256 .unwritten, ZP := Vector.replicate 256 .unwritten
    IVM := [], OVM := []
    ICR := Vector.replicate 256 .unwritten, OCR := Vector.replicate 256 .unwritten
    trace := [], fault := none }

/-- The machine after reset with given parameters and `more + 1` contexts (10_state.md R39; 60_exceptions.md R195): the
tables and `TRDY` as `TABLE_INIT` says, every context in its reset state, nothing issued (70_reset_and_hazards.md R211). -/
def State.resetWith (p : Params) (more : Nat) : State :=
  { params := p
    MULT := match p.tableInit with | .explicit => .unwritten | .static => .written multTable
    INVT := match p.tableInit with | .explicit => .unwritten | .static => .written invTable
    TRDY := match p.tableInit with | .explicit => false | .static => true
    before := [], ctx := Context.reset, after := List.replicate more Context.reset
    issue := [] }

/-- The machine right after reset: `TABLE_INIT = explicit`, one context (00_scope.md R10, R11), and
DESIGN CHOICE `LN_MAX = 16` (log 1). -/
def State.reset : State := State.resetWith Params.default 0

end Sys2Proof.Machine
end

