-- ==== Sys2Proof/Machine/Ops.lean ====
section
/-! DEFINITION. The operations over registers, register files and memories that the commands share (spec/00_scope.md
R16, R17; 20_memory.md R50), the response port (30_encoding.md R73), and the ports (60_exceptions.md R195). The hardware
takes no exception and returns from none (60_exceptions.md R180, R188, R189), so there is no operation for either:
`raise Undefined(reason)` is the outcome `fault` (R184). -/

namespace Sys2Proof.Machine

/-! ### Reading locations -/

/-- A read of a location: "A pseudocode read of an unwritten location is `raise Undefined(U_UNWRITTEN)`"
(00_scope.md R17). -/
def Loc.get {α : Type} : Loc α → Except Fault α
  | .unwritten => .error .unwritten
  | .written v => .ok v

/-- A location of which only the given value, if there is one, is written. -/
def Loc.ofOption {α : Type} : Option α → Loc α
  | none => .unwritten
  | some v => .written v

/-- A condition that must hold: `if not c then raise Undefined(reason)` (00_scope.md R16). -/
def require (c : Bool) (r : Fault) : Except Fault Unit := if c then .ok () else .error r

/-- All the values, or the first fault. -/
def collect {α : Type} : List (Except Fault α) → Except Fault (List α)
  | [] => .ok []
  | .error r :: _ => .error r
  | .ok v :: rest =>
    match collect rest with
    | .error r => .error r
    | .ok vs => .ok (v :: vs)

/-! ### Register files -/

/-- The register file that holds the given values in its first entries; the others are unwritten
(41_cross_product.md R122). -/
def RegFile.ofList (l : List Byte) : RegFile :=
  tabulate 256 fun j => Loc.ofOption l[j]?

/-- `NAME[j] <- v` (00_scope.md R16). -/
def RegFile.write (f : RegFile) (j : Fin 256) (v : Byte) : RegFile := f.set j (.written v)

/-- The first `n` entries, each of which must be written (00_scope.md R17); all 256 for a larger `n`, a DESIGN CHOICE in
states that no run reaches (log 14). -/
def RegFile.first (f : RegFile) (n : Nat) : Except Fault (List Byte) :=
  collect ((f.toList.take n).map Loc.get)

/-! ### Value memories -/

/-- The key of the byte at a row and an offset. An offset is below `LN_MAX`, hence below `2^32` (00_scope.md R9), so no
two bytes of a memory share a key and no carry reaches the row (20_memory.md R50; log 9). -/
def memKey (row off : Nat) : Nat := row * 2 ^ 32 + off

/-- What a memory holds at a key; a key that is not listed is unwritten (10_state.md R39). -/
def Memory.atKey : Memory → Nat → Loc Byte
  | [], _ => .unwritten
  | (k, v) :: m, key => if key = k then .written v else Memory.atKey m key

/-- Put a byte at a key, keeping the keys in rising order. -/
def Memory.putKey : Memory → Nat → Byte → Memory
  | [], key, v => [(key, v)]
  | (k, w) :: m, key, v =>
    if key < k then (key, v) :: (k, w) :: m
    else if key = k then (key, v) :: m
    else (k, w) :: Memory.putKey m key v

/-- `MemRead(M, row, offset)` (20_memory.md R50). -/
def Memory.read (m : Memory) (row off : Nat) : Loc Byte := m.atKey (memKey row off)

/-- `MemWrite(M, row, offset, v)`: "replaces it with the byte `v` and changes nothing else" (20_memory.md R50). -/
def Memory.write (m : Memory) (row off : Nat) (v : Byte) : Memory := m.putKey (memKey row off) v

/-- Write bytes at rising offsets of one row. -/
def Memory.writeRow (m : Memory) (row off : Nat) : List Byte → Memory
  | [] => m
  | v :: vs => Memory.writeRow (m.write row off v) row (off + 1) vs

/-- Write rows of bytes, each from offset 0, at rising row numbers. -/
def Memory.writeRows (m : Memory) (row : Nat) : List (List Byte) → Memory
  | [] => m
  | r :: rs => Memory.writeRows (m.writeRow row 0 r) (row + 1) rs

/-- The bytes at one offset of the first `n` rows, each of which must be written (00_scope.md R17). -/
def Memory.column (m : Memory) (n t : Nat) : Except Fault (List Byte) :=
  collect ((List.range n).map fun j => (m.read j t).get)

/-- The columns at the offsets below `len` (42_interpolation.md R147: every byte of rows below `IN` and offsets below
`LN` must be written). Rows from 256 on are asked for as well when `n` says so, a DESIGN CHOICE in states that no run
reaches (log 14). -/
def Memory.columns (m : Memory) (n len : Nat) : Except Fault (List (List Byte)) :=
  collect ((List.range len).map fun t => m.column n t)

/-- The keys rise strictly. No entry equals what an unlisted key reads as, which is no byte at all. -/
def Memory.wf : Memory → Bool
  | [] => true
  | [_] => true
  | (k, _) :: (k', v') :: m => decide (k < k') && Memory.wf ((k', v') :: m)

/-- Every listed byte is at a row below 256 and an offset below `LN_MAX` (20_memory.md R50). -/
def Memory.inSpace (m : Memory) (p : Params) : Bool :=
  m.all fun c => decide (c.1 / 2 ^ 32 < 256) && decide (c.1 % 2 ^ 32 < p.lnMax.val)

/-! ### Updates of a context -/

/-- `IN <- n` (43_host_access.md R161). -/
def Context.setIN (k : Context) (n : BitVec 9) : Context := { k with IN := .written n }

/-- `ON <- n` (43_host_access.md R162). -/
def Context.setON (k : Context) (n : BitVec 9) : Context := { k with ON := .written n }

/-- `LN <- n` (43_host_access.md R163). -/
def Context.setLN (k : Context) (n : BitVec 32) : Context := { k with LN := .written n }

/-- `XP[j] <- x` (43_host_access.md R164). -/
def Context.setXP (k : Context) (j : Fin 256) (x : Byte) : Context := { k with XP := k.XP.write j x }

/-- `ZP[i] <- z` (43_host_access.md R165). -/
def Context.setZP (k : Context) (i : Fin 256) (z : Byte) : Context := { k with ZP := k.ZP.write i z }

/-- `MemWrite(IVM, j, t, v)` (43_host_access.md R166). -/
def Context.setIVM (k : Context) (j t : Nat) (v : Byte) : Context := { k with IVM := k.IVM.write j t v }

/-- `OVM` rows from 0, offsets from 0, replaced by the given rows of bytes (42_interpolation.md R147). -/
def Context.setOVM (k : Context) (rows : List (List Byte)) : Context := { k with OVM := k.OVM.writeRows 0 rows }

/-- The two cross-product register files; the entries beyond the given ones become unwritten (41_cross_product.md
R122, R124). -/
def Context.setCross (k : Context) (ics ocs : List Byte) : Context :=
  { k with ICR := RegFile.ofList ics, OCR := RegFile.ofList ocs }

/-- `respond(v)`: the byte joins the response trace (30_encoding.md R73). -/
def Context.respond (k : Context) (v : Byte) : Context := { k with trace := k.trace ++ [v] }

/-- The context's run stops as faulted (60_exceptions.md R184). -/
def Context.recordFault (k : Context) (r : Fault) : Context := { k with fault := some r }

/-! ### Updates of the machine -/

/-- Replace the context served. -/
def State.withCtx (s : State) (k : Context) : State := { s with ctx := k }

/-- The Field Tables with their final contents, and `TRDY <- 1` (40_field_arithmetic.md R101). -/
def State.withTables (s : State) (M : MulTable) (V : InvTable) : State :=
  { s with MULT := .written M, INVT := .written V, TRDY := true }

/-- `respond(v)` on the port of the context served (30_encoding.md R73). -/
def State.respond (s : State) (v : Byte) : State := s.withCtx (s.ctx.respond v)

/-- The outcome of a command: its next state, or the fault that `raise Undefined(reason)` is (60_exceptions.md R184). -/
def finish : Except Fault State → Host.Outcome State Fault Refusal
  | .ok s => .next s
  | .error r => .fault r

/-! ### Ports -/

/-- Every context, in the order of the ports. -/
def State.contexts (s : State) : List Context := s.before ++ s.ctx :: s.after

/-- Serve the context at a port, if there is one (60_exceptions.md R195). -/
def State.select (s : State) (port : Nat) : Option State :=
  match s.contexts.drop port with
  | [] => none
  | k :: rest => some { s with before := s.contexts.take port, ctx := k, after := rest }

/-- The run of the context at a port has stopped as faulted (60_exceptions.md R184). -/
def State.isFaulted (s : State) (port : Nat) : Bool :=
  match s.contexts[port]? with
  | some k => k.fault.isSome
  | none => false

/-- The first word for a port that goes on, and the other words. A word for a port whose run has stopped stays pending:
"The engine accepts a word only when the previous command has completed" (30_encoding.md R72), and the undefined one
never does. -/
def takeIssued (stopped : Nat → Bool) : List (Nat × Word) → Option ((Nat × Word) × List (Nat × Word))
  | [] => none
  | c :: q =>
    if stopped c.1 then
      match takeIssued stopped q with
      | none => none
      | some (d, rest) => some (d, c :: rest)
    else some (c, q)

/-- What the hosts present next. -/
inductive Presented where
  /-- no command can be accepted (60_exceptions.md R194, "between commands it is idle") -/
  | nothing
  /-- the next command is for a port that no context has -/
  | noPort
  /-- a command word, and the state in which its context is served and the word is taken -/
  | command (w : Word) (s : State)
  deriving DecidableEq, Repr

/-- Take the next command word of a context that goes on (30_encoding.md R72, R83). -/
def State.present (s : State) : Presented :=
  match takeIssued s.isFaulted s.issue with
  | none => .nothing
  | some ((port, w), rest) =>
    match ({ s with issue := rest } : State).select port with
    | none => .noPort
    | some s' => .command w s'

/-- The machine goes on as long as some context does; it stops when every context's run has stopped as faulted
(60_exceptions.md R184, R195; log 8). -/
def State.proceed (s : State) : Host.Outcome State Fault Refusal :=
  match s.ctx.fault with
  | none => .next s
  | some r => if s.contexts.all (·.fault.isSome) then .fault r else .next s

/-- The command of the context served is undefined: that context's run stops as faulted and keeps no effect of the
command, and no other context is affected (60_exceptions.md R184, R188, R195). -/
def State.stopContext (s : State) (r : Fault) : Host.Outcome State Fault Refusal :=
  (s.withCtx (s.ctx.recordFault r)).proceed

/-- Present a command word at the port served, before every pending one. -/
def State.presentFirst (s : State) (w : Word) : State :=
  { s with issue := (s.before.length, w) :: s.issue }

/-- Put a program at a port, behind what is pending (30_encoding.md R83; log 5). -/
def State.issueProgram (s : State) (port : Nat) (ws : List Word) : State :=
  { s with issue := s.issue ++ ws.map fun w => (port, w) }

end Sys2Proof.Machine
end

