-- ==== Sys2Proof/Machine/Flags.lean ====
section
/-! DEFINITION. The two flags (spec/10_state.md R23, R27, R35): what tests them, what sets them, what clears them. There
are no condition codes (R35). -/

namespace Sys2Proof.Machine

/-- "Every command that performs field arithmetic reads it and is `raise Undefined(U_TABLES_NOT_READY)` when it is 0"
(10_state.md R23). -/
def State.requireTables (s : State) : Except Fault Unit :=
  require s.TRDY .tablesNotReady

/-- `INTERP` "is `raise Undefined(U_STALE_CROSS)` when it is 0" (10_state.md R27). -/
def Context.requireCross (k : Context) : Except Fault Unit :=
  require k.XV .staleCross

/-- `XV <- 1` (10_state.md R27). -/
def Context.setXV (k : Context) : Context := { k with XV := true }

/-- `XV <- 0` (10_state.md R27). -/
def Context.clearXV (k : Context) : Context := { k with XV := false }

end Sys2Proof.Machine
end

