-- ==== Sys2Proof/Machine/TableArithmetic.lean ====
section
/-! DEFINITION. Field arithmetic as the hardware performs it, by reading the Field Tables (spec/40_field_arithmetic.md
R93, R94): a product is one read of `MULT`, an inverse one read of `INVT`. -/

namespace Sys2Proof.Machine

/-- A multiplication and a partial inversion. -/
structure Arith where
  mul : Byte → Byte → Byte
  inv : Byte → Except Fault Byte

/-- `MULT[a][b]` (40_field_arithmetic.md R93). -/
def MulTable.mul (M : MulTable) (a b : Byte) : Byte := (M[a.toNat]'a.isLt)[b.toNat]'b.isLt

/-- `INVT[a]`; "A pseudocode `inv(0)` is `raise Undefined(U_INV_ZERO)`" (40_field_arithmetic.md R94). -/
def InvTable.inv (V : InvTable) (a : Byte) : Except Fault Byte :=
  if h : a.toNat = 0 then .error .invZero else .ok (V[a.toNat - 1]'(by have := a.isLt; omega))

/-- The field itself (40_field_arithmetic.md R92, R94). -/
def fieldArith : Arith where
  mul := gfMul
  inv a := match gfInv a with
    | none => .error .invZero
    | some v => .ok v

/-- The multiplication that `MULT` holds. -/
def State.mulOf (s : State) : Except Fault (Byte → Byte → Byte) := do
  let M ← s.MULT.get
  return M.mul

/-- The arithmetic that `MULT` and `INVT` hold. -/
def State.arith (s : State) : Except Fault Arith := do
  let M ← s.MULT.get
  let V ← s.INVT.get
  return { mul := M.mul, inv := V.inv }

end Sys2Proof.Machine
end

