-- ==== Sys2Proof/Machine/CrossProduct.lean ====
section
/-! DEFINITION. The Cross-Product Stage (spec/41_cross_product.md): the two vectors, the stage, and the commands XPROD,
RDIC, RDOC. -/

namespace Sys2Proof.Machine

/-! ### The two vectors -/

/-- `PROD_{k in S}`: `p <- 0x01`, then `p <- mul(p, f(k))` for each factor; the empty product is `0x01` (00_scope.md
R15; 41_cross_product.md R124). -/
def product (mul : Byte → Byte → Byte) (factors : List Byte) : Byte := factors.foldl mul 1

/-- `in_cross[j]`: the product over `k != j` of `add(x_j, x_k)`, for each `j` (41_cross_product.md R120). -/
def inCross (mul : Byte → Byte → Byte) (xs : List Byte) : List Byte :=
  xs.zipIdx.map fun p => product mul ((xs.eraseIdx p.2).map (gfAdd p.1))

/-- `out_cross[i]`: the product over all `k` of `add(z_i, x_k)`, for each `i` (41_cross_product.md R121). -/
def outCross (mul : Byte → Byte → Byte) (xs zs : List Byte) : List Byte :=
  zs.map fun z => product mul (xs.map (gfAdd z))

/-! ### The stage -/

/-- The Cross-Product Stage: the conditions of 41_cross_product.md R123 in the order of its table, then R124. The
registers from `IN` and `ON` on become unwritten (R122). A count above 256, in a state that no run reaches, acts as 256 here (DESIGN
CHOICE, log 14). -/
def crossProductStage (s : State) : Except Fault State := do
  s.requireTables
  let n ← s.ctx.IN.get
  let m ← s.ctx.ON.get
  require (n ≠ 0) .inZero
  let xs ← s.ctx.XP.first n.toNat
  let zs ← s.ctx.ZP.first m.toNat
  require xs.Nodup .dupPoint
  let mul ← s.mulOf
  return s.withCtx (s.ctx.setCross (inCross mul xs) (outCross mul xs zs)).setXV

/-! ### Commands -/

/-- `XPROD`: run the Cross-Product Stage (41_cross_product.md R124). -/
def execXprod (s : State) : Host.Outcome State Fault Refusal := finish (crossProductStage s)

/-- `RDIC`: respond `ICR[j]`, whatever `XV` is (41_cross_product.md R125). -/
def execRdic (j : Fin 256) (s : State) : Host.Outcome State Fault Refusal :=
  finish do
    let v ← s.ctx.ICR[j].get
    return s.respond v

/-- `RDOC`: respond `OCR[i]`, whatever `XV` is (41_cross_product.md R126). -/
def execRdoc (i : Fin 256) (s : State) : Host.Outcome State Fault Refusal :=
  finish do
    let v ← s.ctx.OCR[i].get
    return s.respond v

end Sys2Proof.Machine
end

