-- ==== Sys2Proof/Machine/FieldArithmetic.lean ====
section
/-! DEFINITION. The commands of spec/40_field_arithmetic.md section 3: TINIT, GFADD, GFMUL, GFINV. -/

namespace Sys2Proof.Machine

/-- `TINIT`: build both tables and set `TRDY`; no effect when `TRDY = 1` (40_field_arithmetic.md R101). -/
def execTinit (s : State) : Host.Outcome State Fault Refusal :=
  if s.TRDY then .next s else .next (s.withTables multTable invTable)

/-- `GFADD`: respond `a xor b` (40_field_arithmetic.md R102). -/
def execGfadd (a b : Byte) (s : State) : Host.Outcome State Fault Refusal :=
  finish do
    s.requireTables
    return s.respond (gfAdd a b)

/-- `GFMUL`: respond `MULT[a][b]` (40_field_arithmetic.md R103). -/
def execGfmul (a b : Byte) (s : State) : Host.Outcome State Fault Refusal :=
  finish do
    s.requireTables
    let mul ← s.mulOf
    return s.respond (mul a b)

/-- `GFINV`: respond `INVT[a]`; undefined at `0x00` (40_field_arithmetic.md R104). -/
def execGfinv (a : Byte) (s : State) : Host.Outcome State Fault Refusal :=
  finish do
    s.requireTables
    require (a ≠ 0) .invZero
    let V ← s.INVT.get
    let v ← V.inv a
    return s.respond v

end Sys2Proof.Machine
end

