-- ==== Sys2Proof/Machine/Operands.lean ====
section
/-! DEFINITION. The operand forms (spec/30_encoding.md R74; 43_host_access.md R160): `A` and `B` are used as they stand,
and `T` is a count, a length or an offset, each with its range. -/

namespace Sys2Proof.Machine

/-- `T` as a count: "A count is legal when `T <= 256`" (30_encoding.md R74; 43_host_access.md R161, R162). -/
def countOperand (n : Nat) : Except Fault (BitVec 9) :=
  if n > 256 then .error .countRange else .ok (BitVec.ofNat 9 n)

/-- `T` as a length: legal "when `T <= LN_MAX`" (30_encoding.md R74; 43_host_access.md R163). -/
def lengthOperand (p : Params) (n : Nat) : Except Fault (BitVec 32) :=
  if n > p.lnMax.val then .error .lenRange else .ok (BitVec.ofNat 32 n)

/-- `T` as an offset: legal "when `T < LN_MAX`" (30_encoding.md R74; 43_host_access.md R166, R167). -/
def offsetOperand (p : Params) (t : Nat) : Except Fault Nat :=
  if t ≥ p.lnMax.val then .error .lenRange else .ok t

end Sys2Proof.Machine
end

