-- ==== Sys2Proof/Machine/HostAccess.lean ====
section
/-! DEFINITION. The commands of spec/43_host_access.md: SETIN, SETON, SETLN, WRXP, WRZP, WRIV, RDOV. None needs
`TRDY`. -/

namespace Sys2Proof.Machine

/-- `SETIN`: `IN <- n`, `XV <- 0`; undefined above 256 (43_host_access.md R161). -/
def execSetin (n : Nat) (s : State) : Host.Outcome State Fault Refusal :=
  finish do
    let v ← countOperand n
    return s.withCtx (s.ctx.setIN v).clearXV

/-- `SETON`: `ON <- n`, `XV <- 0`; undefined above 256 (43_host_access.md R162). -/
def execSeton (n : Nat) (s : State) : Host.Outcome State Fault Refusal :=
  finish do
    let v ← countOperand n
    return s.withCtx (s.ctx.setON v).clearXV

/-- `SETLN`: `LN <- n`; undefined above `LN_MAX`; `XV` stays (43_host_access.md R163). -/
def execSetln (n : Nat) (s : State) : Host.Outcome State Fault Refusal :=
  finish do
    let v ← lengthOperand s.params n
    return s.withCtx (s.ctx.setLN v)

/-- `WRXP`: `XP[j] <- x`, `XV <- 0` (43_host_access.md R164). -/
def execWrxp (j : Fin 256) (x : Byte) (s : State) : Host.Outcome State Fault Refusal :=
  .next (s.withCtx (s.ctx.setXP j x).clearXV)

/-- `WRZP`: `ZP[i] <- z`, `XV <- 0` (43_host_access.md R165). -/
def execWrzp (i : Fin 256) (z : Byte) (s : State) : Host.Outcome State Fault Refusal :=
  .next (s.withCtx (s.ctx.setZP i z).clearXV)

/-- `WRIV`: `IVM` row `j` offset `t` `<- v`; undefined at or above `LN_MAX`; `XV` stays (43_host_access.md R166). -/
def execWriv (j : Fin 256) (v : Byte) (t : Nat) (s : State) : Host.Outcome State Fault Refusal :=
  finish do
    let off ← offsetOperand s.params t
    return s.withCtx (s.ctx.setIVM j off v)

/-- `RDOV`: respond `OVM` row `i` offset `t`; undefined at or above `LN_MAX` (43_host_access.md R167). -/
def execRdov (i : Fin 256) (t : Nat) (s : State) : Host.Outcome State Fault Refusal :=
  finish do
    let off ← offsetOperand s.params t
    let v ← (s.ctx.OVM.read i off).get
    return s.respond v

end Sys2Proof.Machine
end

