-- ==== Sys2Proof/Machine/Interpolation.lean ====
section
/-! DEFINITION. The Interpolation Engine (spec/42_interpolation.md): the function, the stage, and the commands INTERP
and TRANSFORM. -/

namespace Sys2Proof.Machine

/-! ### The function -/

/-- `c <- none`; for each `j`, `if add(z, x_j) = 0x00 then c <- j`: the input point that output point `z` coincides
with (42_interpolation.md R140, R147). -/
def coincident (xs : List Byte) (z : Byte) : Option Nat :=
  xs.zipIdx.foldl (fun c p => if gfAdd z p.1 = 0 then some p.2 else c) none

/-- `mul(out_cross, inv(mul(in_cross, add(z, x))))`, the factor of one input point (42_interpolation.md R141, R146). -/
def coefficient (A : Arith) (z oc x ic : Byte) : Except Fault Byte := do
  let v ← A.inv (A.mul ic (gfAdd z x))
  return A.mul oc v

/-- The sum over the input points, each given as its point, its cross product and its value byte
(42_interpolation.md R141). -/
def lagrangeSum (A : Arith) (z oc : Byte) : List (Byte × Byte × Byte) → Except Fault Byte
  | [] => .ok 0
  | (x, ic, v) :: rest => do
    let c ← coefficient A z oc x ic
    let acc ← lagrangeSum A z oc rest
    return gfAdd (A.mul v c) acc

/-- One output byte: the value at the coincident input point if there is one (42_interpolation.md R142), else the
formula of R141. `vs` is the column of input bytes at the offset. This is the function that R149 (a) to (f) speak of. -/
def outputByte (A : Arith) (xs ics : List Byte) (z oc : Byte) (vs : List Byte) : Except Fault Byte :=
  match coincident xs z with
  | some c => (Loc.ofOption vs[c]?).get
  | none => lagrangeSum A z oc (xs.zip (ics.zip vs))

/-- The output rows: for each output point, one byte for each column (42_interpolation.md R147). -/
def outputRows (A : Arith) (xs ics zs ocs : List Byte) (columns : List (List Byte)) :
    Except Fault (List (List Byte)) :=
  collect ((zs.zip ocs).map fun p => collect (columns.map (outputByte A xs ics p.1 p.2)))

/-! ### The stage -/

/-- The Interpolation Engine (42_interpolation.md R147): the conditions in the order of its pseudocode, then `OVM` rows
below `ON`, offsets below `LN`. In states that no run reaches, with a count above 256 or an `LN` above `LN_MAX`, what it
does is a DESIGN CHOICE (log 14): with `IN` above 256 and `LN` above 0 it asks for `IVM` rows from 256 on, which are
unwritten, and so faults. -/
def interpolationStage (s : State) : Except Fault State := do
  s.requireTables
  s.ctx.requireCross
  let n ← s.ctx.IN.get
  let m ← s.ctx.ON.get
  let len ← s.ctx.LN.get
  let columns ← s.ctx.IVM.columns n.toNat len.toNat
  let xs ← s.ctx.XP.first n.toNat
  let zs ← s.ctx.ZP.first m.toNat
  let ics ← s.ctx.ICR.first n.toNat
  let ocs ← s.ctx.OCR.first m.toNat
  let A ← s.arith
  let rows ← outputRows A xs ics zs ocs columns
  return s.withCtx (s.ctx.setOVM rows)

/-! ### Commands -/

/-- `INTERP`: run the Interpolation Engine (42_interpolation.md R147). -/
def execInterp (s : State) : Host.Outcome State Fault Refusal := finish (interpolationStage s)

/-- `TRANSFORM`: both stages as one command; if either is undefined nothing is kept (42_interpolation.md R148). It
has the properties of R149. -/
def execTransform (s : State) : Host.Outcome State Fault Refusal :=
  finish do
    let s' ← crossProductStage s
    interpolationStage s'

end Sys2Proof.Machine
end

