-- ==== Sys2Proof/Machine/Dispatch.lean ====
section
/-! DEFINITION. What each command does to the context served (spec/30_encoding.md R75), one arm for each. -/

namespace Sys2Proof.Machine

def exec (i : Instr) (s : State) : Host.Outcome State Fault Refusal :=
  match i with
  | .tinit => Sys2Proof.Machine.execTinit s
  | .gfadd a b => Sys2Proof.Machine.execGfadd a b s
  | .gfmul a b => Sys2Proof.Machine.execGfmul a b s
  | .gfinv a => Sys2Proof.Machine.execGfinv a s
  | .setin n => Sys2Proof.Machine.execSetin n s
  | .seton n => Sys2Proof.Machine.execSeton n s
  | .setln n => Sys2Proof.Machine.execSetln n s
  | .wrxp j x => Sys2Proof.Machine.execWrxp j x s
  | .wrzp j z => Sys2Proof.Machine.execWrzp j z s
  | .wriv j v t => Sys2Proof.Machine.execWriv j v t s
  | .rdov j t => Sys2Proof.Machine.execRdov j t s
  | .xprod => Sys2Proof.Machine.execXprod s
  | .rdic j => Sys2Proof.Machine.execRdic j s
  | .rdoc j => Sys2Proof.Machine.execRdoc j s
  | .interp => Sys2Proof.Machine.execInterp s
  | .transform => Sys2Proof.Machine.execTransform s

end Sys2Proof.Machine
end

