-- ==== Sys2Proof/Machine/Step.lean ====
section
/-! DEFINITION. One step of the machine: the next command word that a host presents is taken, decoded and performed to
completion (spec/20_memory.md R57; 30_encoding.md R83). -/

namespace Sys2Proof.Machine

/-- What the outcome of a command, performed for the context served in `s`, makes of the machine: an undefined command
stops its own context (60_exceptions.md R184, R195; log 8). -/
def conclude (s : State) : Host.Outcome State Fault Refusal → Host.Outcome State Fault Refusal
  | .next t => .next t
  | .fault r => s.stopContext r
  | .refused r => .refused r

/-- One step. With no command to accept the engine "is idle and keeps all state" (60_exceptions.md R194; log 7); a
reserved word is `Undefined(U_ILLEGAL_CMD)` (30_encoding.md R77); a word for a port that no context has is no move of any
host. -/
def step (s : State) : Host.Outcome State Fault Refusal :=
  match s.present with
  | .nothing => s.proceed
  | .noPort => .refused .noSuchPort
  | .command w s' =>
    match decode w with
    | .ok i => conclude s' (exec i s')
    | .error _ => s'.stopContext .illegalCmd

/-- The state with a command word presented next at the port served: the host issues it (log 5). -/
def State.withFetchWord (s : State) (nbits w : Nat) : State := s.presentFirst (tableWord nbits w)

end Sys2Proof.Machine
end

