-- ==== Sys2Proof/Safety.lean ====
section
/-! DEFINITION. The terms in which claims about the machine are stated: the opcode table as masks, what a caller owes
(spec/41_cross_product.md R123; 70_reset_and_hazards.md R213), the functions the two stages compute, written from the
rules and not from the model's loops, the invariant of the state, and runs. -/

namespace Sys2Proof.Machine

/-! ### The opcode table -/

/-- One row of spec/opcode_table.json: a word `W` selects it exactly when `W and mask = pattern` (30_encoding.md R76;
`pattern` is the table's `match`). -/
structure TableRow where
  mnemonic : String
  mask : Word
  pattern : Word
  deriving DecidableEq, Repr

/-- The rows of spec/opcode_table.json. -/
def tableRows : List TableRow :=
  [ ⟨"TINIT", 0xffffffffffffffff, 0x0100000000000000⟩,
    ⟨"GFADD", 0xff0000ffffffffff, 0x1000000000000000⟩,
    ⟨"GFMUL", 0xff0000ffffffffff, 0x1100000000000000⟩,
    ⟨"GFINV", 0xff00ffffffffffff, 0x1200000000000000⟩,
    ⟨"SETIN", 0xffffffff00000000, 0x2000000000000000⟩,
    ⟨"SETON", 0xffffffff00000000, 0x2100000000000000⟩,
    ⟨"SETLN", 0xffffffff00000000, 0x2200000000000000⟩,
    ⟨"WRXP", 0xff0000ffffffffff, 0x2300000000000000⟩,
    ⟨"WRZP", 0xff0000ffffffffff, 0x2400000000000000⟩,
    ⟨"WRIV", 0xff0000ff00000000, 0x2500000000000000⟩,
    ⟨"RDOV", 0xff00ffff00000000, 0x2600000000000000⟩,
    ⟨"XPROD", 0xffffffffffffffff, 0x3000000000000000⟩,
    ⟨"RDIC", 0xff00ffffffffffff, 0x3100000000000000⟩,
    ⟨"RDOC", 0xff00ffffffffffff, 0x3200000000000000⟩,
    ⟨"INTERP", 0xffffffffffffffff, 0x4000000000000000⟩,
    ⟨"TRANSFORM", 0xffffffffffffffff, 0x4100000000000000⟩ ]

/-- The word selects the row. -/
def TableRow.selects (r : TableRow) (w : Word) : Prop := w &&& r.mask = r.pattern

/-! ### The functions of the two stages, as the rules state them -/

/-- `inv(a)` where it exists; used at nonzero `a` only (40_field_arithmetic.md R94). -/
def fieldInv (a : Byte) : Byte := (gfInv a).getD 0

/-- `PROD_{k in S} f(k)` (00_scope.md R15). -/
def fieldProduct (l : List Byte) : Byte := l.foldr gfMul 1

/-- `in_cross[j]`: the product over `k` below `IN`, `k != j`, of `add(x_j, x_k)` (41_cross_product.md R120). -/
def crossIn (xs : List Byte) (j : Nat) : Byte :=
  fieldProduct (((List.range xs.length).filter (· ≠ j)).map fun k => xs.getD j 0 ^^^ xs.getD k 0)

/-- `out_cross` of an output point `z`: the product over `k` below `IN` of `add(z, x_k)` (41_cross_product.md R121). -/
def crossOut (xs : List Byte) (z : Byte) : Byte :=
  fieldProduct ((List.range xs.length).map fun k => z ^^^ xs.getD k 0)

/-- The general case (42_interpolation.md R141), `vs` the column of input bytes at one offset. -/
def lagrangeFormula (xs vs : List Byte) (z : Byte) : Byte :=
  xorSum ((List.range xs.length).map fun j =>
    gfMul (vs.getD j 0) (gfMul (crossOut xs z) (fieldInv (gfMul (crossIn xs j) (z ^^^ xs.getD j 0)))))

/-- The output byte (42_interpolation.md R141, R142): at an output point that coincides with input point `c` the value
of input `c`, elsewhere the formula. For distinct input
points it is the value at `z` of the one polynomial of R149 (c). -/
def interpolant (xs vs : List Byte) (z : Byte) : Byte :=
  match xs.idxOf? z with
  | some c => vs.getD c 0
  | none => lagrangeFormula xs vs z

/-- The value at `z` of the polynomial with the given coefficients, constant term first
(42_interpolation.md R149 (c)). -/
def polyEval (cs : List Byte) (z : Byte) : Byte := cs.foldr (fun c acc => c ^^^ gfMul z acc) 0

/-! ### What a caller owes -/

/-- The first entries of the register file are written with the given values. -/
def RegFile.Holds (f : RegFile) (l : List Byte) : Prop := f.first l.length = .ok l

/-- The Field Tables hold their final contents (10_state.md R21, R22). -/
def State.TablesFinal (s : State) : Prop := s.MULT = .written multTable ∧ s.INVT = .written invTable

/-- The conditions of 41_cross_product.md R123, with input points `xs` and output points `zs`. -/
structure State.XprodReady (s : State) (xs zs : List Byte) : Prop where
  trdy : s.TRDY = true
  count_in : s.ctx.IN = .written (BitVec.ofNat 9 xs.length)
  count_out : s.ctx.ON = .written (BitVec.ofNat 9 zs.length)
  nonempty : xs ≠ []
  points_in : s.ctx.XP.Holds xs
  points_out : s.ctx.ZP.Holds zs
  distinct : xs.Nodup

/-- `LN` holds `len` and every byte of `IVM` rows below `n`, offsets below `len`, is written, the byte at row `j`,
offset `t` being `v j t` (42_interpolation.md R147). -/
structure State.ValuesReady (s : State) (n len : Nat) (v : Nat → Nat → Byte) : Prop where
  length : ∃ l, s.ctx.LN = .written l ∧ l.toNat = len
  values : ∀ j < n, ∀ t < len, s.ctx.IVM.read j t = .written (v j t)

/-- The input bytes at offset `t` of the first `n` rows. -/
def columnOf (v : Nat → Nat → Byte) (n t : Nat) : List Byte := (List.range n).map fun j => v j t

/-! ### The invariant -/

/-- `XV = 1` means that `ICR` and `OCR` hold the cross products of the present counts and points (10_state.md R27), which
met 41_cross_product.md R123, and that every other entry is unwritten (R122). -/
def Context.CrossValid (k : Context) : Prop :=
  ∃ xs zs : List Byte,
    k.IN = .written (BitVec.ofNat 9 xs.length) ∧ k.ON = .written (BitVec.ofNat 9 zs.length) ∧ xs ≠ [] ∧
    k.XP.Holds xs ∧ k.ZP.Holds zs ∧ xs.Nodup ∧
    k.ICR = RegFile.ofList (inCross gfMul xs) ∧ k.OCR = RegFile.ofList (outCross gfMul xs zs)

/-- A legal context: counts at most 256, length at most `LN_MAX`, memories in canonical form and inside their space,
and `XV` as 10_state.md R27 says. -/
structure Context.Ok (p : Params) (ready : Bool) (k : Context) : Prop where
  count_in : ∀ n, k.IN = .written n → n.toNat ≤ 256
  count_out : ∀ n, k.ON = .written n → n.toNat ≤ 256
  length : ∀ n, k.LN = .written n → n.toNat ≤ p.lnMax.val
  ivm_wf : k.IVM.wf = true
  ivm_space : k.IVM.inSpace p = true
  ovm_wf : k.OVM.wf = true
  ovm_space : k.OVM.inSpace p = true
  cross : k.XV = true → ready = true ∧ k.CrossValid

/-- The invariant: `TRDY` says exactly whether the tables hold their final contents (10_state.md R23), it is 1 when they
are static (R39), and every context is legal. -/
structure State.Inv (s : State) : Prop where
  ready : s.TRDY = true → s.TablesFinal
  not_ready : s.TRDY = false → s.MULT = .unwritten ∧ s.INVT = .unwritten ∧ s.params.tableInit = .explicit
  contexts : ∀ k ∈ s.contexts, k.Ok s.params s.TRDY

/-! ### Ports and runs -/

/-- The port has a context whose run goes on. -/
def State.Running (s : State) (port : Nat) : Prop := ∃ k, s.contexts[port]? = some k ∧ k.fault = none

/-- The port has a context whose run has stopped as faulted (60_exceptions.md R184). -/
def State.Stopped (s : State) (port : Nat) : Prop := ∃ k r, s.contexts[port]? = some k ∧ k.fault = some r

/-- `s'` is `s` with the context at the port served and `rest` still to be issued, and nothing else changed. -/
structure State.Serves (s s' : State) (port : Nat) (rest : List (Nat × Word)) : Prop where
  contexts : s'.contexts = s.contexts
  place : s'.before.length = port
  served : s.contexts[port]? = some s'.ctx
  issue : s'.issue = rest
  params : s'.params = s.params
  mult : s'.MULT = s.MULT
  invt : s'.INVT = s.INVT
  trdy : s'.TRDY = s.TRDY

/-- What a step answers when the command served in `s'` is undefined: only its own context stops (60_exceptions.md R184,
R195). That the fault is recorded in the context, and that the machine's step answers it only when no other context
goes on, is a DESIGN CHOICE (log 8). -/
def StopsOnly (s s' : State) (port : Nat) (r : Fault) : Prop :=
  ((∃ q, q ≠ port ∧ s.Running q) → step s = .next { s' with ctx := { s'.ctx with fault := some r } }) ∧
  ((∀ q, q ≠ port → ¬ s.Running q) → step s = .fault r)

/-- The machine that one port's host sees alone: its context, its pending words, and the shared tables
(60_exceptions.md R195). -/
def State.alone (s : State) (port : Nat) (k : Context) : State :=
  { s with before := [], ctx := k, after := [], issue := (s.issue.filter (·.1 == port)).map fun c => (0, c.2) }

/-- A run of `k` steps ends in `t` without a fault or a refusal. -/
def RunsTo (k : Nat) (s t : State) : Prop := Sys2Proof.core.run k s = .next t

/-- A state that some run from a reset state reaches, whatever the parameters, the number of contexts and the words
issued. -/
def Reachable (t : State) : Prop :=
  ∃ p more q k, RunsTo k { State.resetWith p more with issue := q } t

end Sys2Proof.Machine
end

