-- ==== Sys2Proof/Certificates/Slice0/Obligations.lean ====
section
/-! DEFINITION. The statements about the machine that are left for proof. A statement of the form `exec i s = .next ...`
gives the whole next state, so it is the instruction's frame too. -/

open Sys2Proof Sys2Proof.Machine

/-! ### Encoding -/

/-- Decoding the word of a well-formed command gives that command back, with every operand (30_encoding.md R71, R75,
R76). -/
def Obligations.DecodeOfEncode : Prop := ∀ i : Instr, i.wf = true → decode (encode i) = .ok i

/-- A word that decodes is the word of the command it decodes to: each legal word has one meaning, and each command one
word (30_encoding.md R75, R76). -/
def Obligations.EncodeOfDecode : Prop := ∀ (w : Word) (i : Instr), decode w = .ok i → i.wf = true ∧ encode i = w

/-- 30_encoding.md R76: a word decodes to a command of a mnemonic exactly when it selects that row of
spec/opcode_table.json by mask and match, and no word selects two rows. -/
def Obligations.DecoderSelectsByMaskAndMatch : Prop :=
  (∀ (w : Word) (r : TableRow), r ∈ tableRows →
    (r.selects w ↔ ∃ i, decode w = .ok i ∧ i.mnemonic = r.mnemonic)) ∧
  (∀ (w : Word) (r r' : TableRow), r ∈ tableRows → r' ∈ tableRows → r.selects w → r'.selects w → r = r')

/-- Words that 95_test_vectors.md 2.1 gives (W2, W3, W7, W16, W18) decode as it says, and reserved words (V1, V2, V8,
V16) do not. -/
def Obligations.SpecWordsDecode : Prop :=
  decode 0x1053ca0000000000 = .ok (.gfadd 0x53 0xca) ∧ decode 0x1102030000000000 = .ok (.gfmul 0x02 0x03) ∧
  decode 0x2000000000000100 = .ok (.setin 256) ∧ decode 0x25019f0000000001 = .ok (.wriv 1 0x9f 1) ∧
  decode 0x2602000000000003 = .ok (.rdov 2 3) ∧ decode 0x0000000000000000 = .error .unlistedOpcode ∧
  decode 0xffffffffffffffff = .error .unlistedOpcode ∧ decode 0x1102030100000000 = .error .reservedFieldNonzero ∧
  decode 0x2602010000000003 = .error .unusedFieldNonzero

/-! ### Steps -/

/-- A step takes the first word of a context that goes on, serves that context, and performs the command the word
decodes to; serving a port changes which context is served and nothing else (30_encoding.md R72, R83; 20_memory.md R57).
An undefined command stops its own context with no effect kept, and no other context is affected (60_exceptions.md R184,
R188, R195; 95_test_vectors.md P7). The form of the stop, in `StopsOnly`, is the model's own choice (log 8): the fault is
recorded in the context while another goes on, and the machine's step answers it when none does. -/
def Obligations.StepPerformsTheDecodedCommand : Prop :=
  ∀ (s : State) (pre post : List (Nat × Word)) (port : Nat) (w : Word) (i : Instr),
    s.issue = pre ++ (port, w) :: post → (∀ c ∈ pre, s.Stopped c.1) → s.Running port → decode w = .ok i →
    ∃ s' : State, s.Serves s' port (pre ++ post) ∧
      (∀ t, exec i s' = .next t → step s = .next t) ∧ ∀ r, exec i s' = .fault r → StopsOnly s s' port r

/-- 30_encoding.md R77, 60_exceptions.md R184: a word that selects no row of the table is `Undefined(U_ILLEGAL_CMD)` in
every state. The form of the stop, in `StopsOnly`, is the model's own choice (log 8): the fault is recorded in the context
while another goes on, and the machine's step answers it when none does. -/
def Obligations.ReservedWordFaults : Prop :=
  ∀ (s : State) (pre post : List (Nat × Word)) (port : Nat) (w : Word),
    s.issue = pre ++ (port, w) :: post → (∀ c ∈ pre, s.Stopped c.1) → s.Running port →
    (∀ r ∈ tableRows, ¬ r.selects w) →
    ∃ s' : State, s.Serves s' port (pre ++ post) ∧ StopsOnly s s' port .illegalCmd

/-- 60_exceptions.md R194, 70_reset_and_hazards.md R211: with no command to accept the engine is idle and keeps all state.
That a step is taken there at all, and that it answers a fault when every context's run has stopped, is the model's own
choice (log 7, log 8). -/
def Obligations.IdleStepKeepsAllState : Prop :=
  ∀ s : State, (∀ c ∈ s.issue, s.Stopped c.1) →
    ((∃ q, s.Running q) → step s = .next s) ∧
    ((∀ q, ¬ s.Running q) → ∃ r, s.ctx.fault = some r ∧ step s = .fault r)

/-- 60_exceptions.md R184: "the fault, once recorded, is never cleared": a context whose run has stopped never changes
again, whatever the others do. That the fault is recorded in a field of the context is the model's own choice (log 8). -/
def Obligations.FaultIsNeverCleared : Prop :=
  ∀ (s t : State) (port : Nat) (k : Context) (r : Fault), step s = .next t → s.contexts[port]? = some k →
    k.fault = some r → t.contexts[port]? = some k

/-! ### The field -/

/-- 40_field_arithmetic.md R91: addition is `xor`, and subtraction is addition. -/
def Obligations.AdditionIsXor : Prop :=
  ∀ a b : Byte, gfAdd a b = a ^^^ b ∧ gfAdd a a = 0 ∧ gfAdd (gfAdd a b) b = a

/-- 40_field_arithmetic.md R95: the laws of the field, for `mul` as R92 constructs it. -/
def Obligations.FieldLaws : Prop :=
  (∀ a b : Byte, gfAdd a b = gfAdd b a ∧ gfMul a b = gfMul b a) ∧
  (∀ a b c : Byte, gfAdd (gfAdd a b) c = gfAdd a (gfAdd b c) ∧ gfMul (gfMul a b) c = gfMul a (gfMul b c) ∧
    gfMul a (gfAdd b c) = gfAdd (gfMul a b) (gfMul a c)) ∧
  (∀ a : Byte, a ≠ 0 → ∃ i, gfInv a = some i ∧ gfMul a i = 1)

/-- 40_field_arithmetic.md R97: what the construction gives for the factors 0 and 1, that a product is zero only if a
factor is, and that the bytes below 2, 4 and 16 are closed under the three operations. -/
def Obligations.ConsequencesOfTheConstruction : Prop :=
  (∀ b : Byte, gfMul 0 b = 0 ∧ gfMul b 0 = 0 ∧ gfMul 1 b = b ∧ gfMul b 1 = b) ∧
  (∀ a b : Byte, gfMul a b = 0 → a = 0 ∨ b = 0) ∧
  (∀ n ∈ [2, 4, 16], ∀ a b : Byte, a.toNat < n → b.toNat < n →
    (gfAdd a b).toNat < n ∧ (gfMul a b).toNat < n ∧ ∀ i, gfInv a = some i → i.toNat < n)

/-! ### TINIT, GFADD, GFMUL, GFINV -/

/-- 40_field_arithmetic.md R101 with R92 and R94: when `TRDY = 0`, TINIT writes every entry of `MULT` with the product
that R92 constructs and every entry of `INVT` with the one byte that has product 1 with its index, sets `TRDY`, and
changes nothing else; when `TRDY = 1` it has no effect. -/
def Obligations.TinitBuildsTheTables : Prop :=
  encode .tinit = 0x0100000000000000 ∧
  (∀ s : State, s.TRDY = true → exec .tinit s = .next s) ∧
  ∀ s : State, s.TRDY = false →
    ∃ (M : MulTable) (V : InvTable),
      exec .tinit s = .next { s with MULT := .written M, INVT := .written V, TRDY := true } ∧
      (∀ a b : Byte, ((M[a.toNat]'a.isLt)[b.toNat]'b.isLt).toNat = mexMul a.toNat b.toNat) ∧
      (∀ (k : Nat) (hk : k < 255), mexMul (k + 1) V[k].toNat = 1 ∧
        ∀ b : Byte, mexMul (k + 1) b.toNat = 1 → b = V[k])

/-- 40_field_arithmetic.md R102: GFADD. -/
def Obligations.GfaddRespondsSum : Prop :=
  ∀ (a b : Byte) (s : State),
    (s.TRDY = true →
      exec (.gfadd a b) s = .next { s with ctx := { s.ctx with trace := s.ctx.trace ++ [a ^^^ b] } }) ∧
    (s.TRDY = false → exec (.gfadd a b) s = .fault .tablesNotReady) ∧
    Fields.ofWord (encode (.gfadd a b)) = ⟨0x10, a, b, 0, 0⟩

/-- 40_field_arithmetic.md R103 with R92: GFMUL responds the product that the minimal-excludant construction gives. -/
def Obligations.GfmulRespondsProduct : Prop :=
  ∀ (a b : Byte) (s : State), s.Inv →
    (s.TRDY = true → ∃ v : Byte, v.toNat = mexMul a.toNat b.toNat ∧
      exec (.gfmul a b) s = .next { s with ctx := { s.ctx with trace := s.ctx.trace ++ [v] } }) ∧
    (s.TRDY = false → exec (.gfmul a b) s = .fault .tablesNotReady) ∧
    Fields.ofWord (encode (.gfmul a b)) = ⟨0x11, a, b, 0, 0⟩

/-- 40_field_arithmetic.md R104 with R94: GFINV responds the inverse, which is not zero; of zero it has none. -/
def Obligations.GfinvRespondsInverse : Prop :=
  ∀ (a : Byte) (s : State), s.Inv →
    (s.TRDY = true → a ≠ 0 → ∃ v : Byte, mexMul a.toNat v.toNat = 1 ∧ v ≠ 0 ∧
      exec (.gfinv a) s = .next { s with ctx := { s.ctx with trace := s.ctx.trace ++ [v] } }) ∧
    (s.TRDY = true → a = 0 → exec (.gfinv a) s = .fault .invZero) ∧
    (s.TRDY = false → exec (.gfinv a) s = .fault .tablesNotReady) ∧
    Fields.ofWord (encode (.gfinv a)) = ⟨0x12, a, 0, 0, 0⟩

/-! ### Host access -/

/-- 43_host_access.md R161: SETIN. -/
def Obligations.SetinWritesIN : Prop :=
  ∀ (n : Nat) (s : State),
    (n ≤ 256 →
      exec (.setin n) s = .next { s with ctx := { s.ctx with IN := .written (BitVec.ofNat 9 n), XV := false } }) ∧
    (n > 256 → exec (.setin n) s = .fault .countRange) ∧
    (n < 2 ^ 32 → Fields.ofWord (encode (.setin n)) = ⟨0x20, 0, 0, 0, BitVec.ofNat 32 n⟩)

/-- 43_host_access.md R162: SETON. -/
def Obligations.SetonWritesON : Prop :=
  ∀ (n : Nat) (s : State),
    (n ≤ 256 →
      exec (.seton n) s = .next { s with ctx := { s.ctx with ON := .written (BitVec.ofNat 9 n), XV := false } }) ∧
    (n > 256 → exec (.seton n) s = .fault .countRange) ∧
    (n < 2 ^ 32 → Fields.ofWord (encode (.seton n)) = ⟨0x21, 0, 0, 0, BitVec.ofNat 32 n⟩)

/-- 43_host_access.md R163: SETLN; `XV` is not changed. -/
def Obligations.SetlnWritesLN : Prop :=
  ∀ (n : Nat) (s : State),
    (n ≤ s.params.lnMax.val →
      exec (.setln n) s = .next { s with ctx := { s.ctx with LN := .written (BitVec.ofNat 32 n) } }) ∧
    (n > s.params.lnMax.val → exec (.setln n) s = .fault .lenRange) ∧
    (n < 2 ^ 32 → Fields.ofWord (encode (.setln n)) = ⟨0x22, 0, 0, 0, BitVec.ofNat 32 n⟩)

/-- 43_host_access.md R164: WRXP writes one entry and clears `XV`, whatever the index and the value. -/
def Obligations.WrxpWritesOneInputPoint : Prop :=
  ∀ (j : Fin 256) (x : Byte) (s : State),
    (∃ t : State, exec (.wrxp j x) s = .next t ∧
      t = { s with ctx := { s.ctx with XP := t.ctx.XP, XV := false } } ∧
      t.ctx.XP[j] = .written x ∧ ∀ k : Fin 256, k ≠ j → t.ctx.XP[k] = s.ctx.XP[k]) ∧
    Fields.ofWord (encode (.wrxp j x)) = ⟨0x23, BitVec.ofFin j, x, 0, 0⟩

/-- 43_host_access.md R165: WRZP writes one entry and clears `XV`, whatever the index and the value. -/
def Obligations.WrzpWritesOneOutputPoint : Prop :=
  ∀ (i : Fin 256) (z : Byte) (s : State),
    (∃ t : State, exec (.wrzp i z) s = .next t ∧
      t = { s with ctx := { s.ctx with ZP := t.ctx.ZP, XV := false } } ∧
      t.ctx.ZP[i] = .written z ∧ ∀ k : Fin 256, k ≠ i → t.ctx.ZP[k] = s.ctx.ZP[k]) ∧
    Fields.ofWord (encode (.wrzp i z)) = ⟨0x24, BitVec.ofFin i, z, 0, 0⟩

/-- 43_host_access.md R166: WRIV writes one byte of `IVM`, at the row and the offset of its operands, and changes no
other byte and nothing else. -/
def Obligations.WrivWritesOneByte : Prop :=
  ∀ (j : Fin 256) (v : Byte) (t : Nat) (s : State),
    (t < s.params.lnMax.val → ∃ u : State, exec (.wriv j v t) s = .next u ∧
      u = { s with ctx := { s.ctx with IVM := u.ctx.IVM } } ∧
      u.ctx.IVM.read j t = .written v ∧
      ∀ row off : Nat, off < 2 ^ 32 → ¬(row = j ∧ off = t) → u.ctx.IVM.read row off = s.ctx.IVM.read row off) ∧
    (t ≥ s.params.lnMax.val → exec (.wriv j v t) s = .fault .lenRange) ∧
    (t < 2 ^ 32 → Fields.ofWord (encode (.wriv j v t)) = ⟨0x25, BitVec.ofFin j, v, 0, BitVec.ofNat 32 t⟩)

/-- 43_host_access.md R167: RDOV responds one byte of `OVM` and changes nothing else. -/
def Obligations.RdovRespondsOneByte : Prop :=
  ∀ (i : Fin 256) (t : Nat) (s : State),
    (∀ v : Byte, t < s.params.lnMax.val → s.ctx.OVM.read i t = .written v →
      exec (.rdov i t) s = .next { s with ctx := { s.ctx with trace := s.ctx.trace ++ [v] } }) ∧
    (t < s.params.lnMax.val → s.ctx.OVM.read i t = .unwritten → exec (.rdov i t) s = .fault .unwritten) ∧
    (t ≥ s.params.lnMax.val → exec (.rdov i t) s = .fault .lenRange) ∧
    (t < 2 ^ 32 → Fields.ofWord (encode (.rdov i t)) = ⟨0x26, BitVec.ofFin i, 0, 0, BitVec.ofNat 32 t⟩)

/-- 20_memory.md R54: "Writes are idempotent": the same WRIV, WRXP or WRZP again leaves the same state. -/
def Obligations.WritesAreIdempotent : Prop :=
  (∀ (j : Fin 256) (v : Byte) (t : Nat) (s u : State),
    exec (.wriv j v t) s = .next u → exec (.wriv j v t) u = .next u) ∧
  (∀ (j : Fin 256) (x : Byte) (s u : State), exec (.wrxp j x) s = .next u → exec (.wrxp j x) u = .next u) ∧
  (∀ (i : Fin 256) (z : Byte) (s u : State), exec (.wrzp i z) s = .next u → exec (.wrzp i z) u = .next u)

/-! ### The Cross-Product Stage -/

/-- 41_cross_product.md R124 with R120, R121, R122: under the conditions of R123 XPROD writes the two vectors, makes
every other entry of `ICR` and `OCR` unwritten, sets `XV`, and changes nothing else. -/
def Obligations.XprodComputesTheVectors : Prop :=
  encode .xprod = 0x3000000000000000 ∧
  ∀ (s : State) (xs zs : List Byte), s.TablesFinal → s.XprodReady xs zs →
    ∃ t : State, exec .xprod s = .next t ∧
      t = { s with ctx := { s.ctx with ICR := t.ctx.ICR, OCR := t.ctx.OCR, XV := true } } ∧
      (∀ j : Fin 256, t.ctx.ICR[j] = if j.val < xs.length then .written (crossIn xs j) else .unwritten) ∧
      (∀ i : Fin 256, t.ctx.OCR[i] =
        if i.val < zs.length then .written (crossOut xs (zs.getD i 0)) else .unwritten)

/-- 41_cross_product.md R123: XPROD and TRANSFORM are undefined when a condition fails, in the order of its table
(60_exceptions.md R186). -/
def Obligations.CrossProductConditions : Prop :=
  ∀ (i : Instr) (s : State), i = .xprod ∨ i = .transform →
    (s.TRDY = false → exec i s = .fault .tablesNotReady) ∧
    (s.TRDY = true → (s.ctx.IN = .unwritten ∨ s.ctx.ON = .unwritten) → exec i s = .fault .unwritten) ∧
    (∀ m, s.TRDY = true → s.ctx.IN = .written 0 → s.ctx.ON = .written m → exec i s = .fault .inZero) ∧
    (∀ n m, s.TRDY = true → s.ctx.IN = .written n → s.ctx.ON = .written m → n ≠ 0 →
      ((∃ j : Fin 256, j.val < n.toNat ∧ s.ctx.XP[j] = .unwritten) ∨
        (∃ k : Fin 256, k.val < m.toNat ∧ s.ctx.ZP[k] = .unwritten)) → exec i s = .fault .unwritten) ∧
    (∀ n m, s.TRDY = true → s.ctx.IN = .written n → s.ctx.ON = .written m → n ≠ 0 →
      (∀ j : Fin 256, j.val < n.toNat → s.ctx.XP[j] ≠ .unwritten) →
      (∀ k : Fin 256, k.val < m.toNat → s.ctx.ZP[k] ≠ .unwritten) →
      (∃ j k : Fin 256, j ≠ k ∧ j.val < n.toNat ∧ k.val < n.toNat ∧ s.ctx.XP[j] = s.ctx.XP[k]) →
      exec i s = .fault .dupPoint)

/-- 41_cross_product.md R125: RDIC responds an entry of `ICR`, whatever `XV` is, and changes nothing else. -/
def Obligations.RdicRespondsInputCrossProduct : Prop :=
  ∀ (j : Fin 256) (s : State),
    (∀ v : Byte, s.ctx.ICR[j] = .written v →
      exec (.rdic j) s = .next { s with ctx := { s.ctx with trace := s.ctx.trace ++ [v] } }) ∧
    (s.ctx.ICR[j] = .unwritten → exec (.rdic j) s = .fault .unwritten) ∧
    Fields.ofWord (encode (.rdic j)) = ⟨0x31, BitVec.ofFin j, 0, 0, 0⟩

/-- 41_cross_product.md R126: RDOC responds an entry of `OCR`, whatever `XV` is, and changes nothing else. -/
def Obligations.RdocRespondsOutputCrossProduct : Prop :=
  ∀ (i : Fin 256) (s : State),
    (∀ v : Byte, s.ctx.OCR[i] = .written v →
      exec (.rdoc i) s = .next { s with ctx := { s.ctx with trace := s.ctx.trace ++ [v] } }) ∧
    (s.ctx.OCR[i] = .unwritten → exec (.rdoc i) s = .fault .unwritten) ∧
    Fields.ofWord (encode (.rdoc i)) = ⟨0x32, BitVec.ofFin i, 0, 0, 0⟩

/-- 41_cross_product.md R127: (a) distinct input points have nonzero cross products; (b) an output cross product is zero
exactly at an input point; (c) two equal input points have zero cross products; (d) the order of the input points does
not matter. -/
def Obligations.CrossProductFacts : Prop :=
  (∀ (xs : List Byte) (j : Nat), xs.Nodup → j < xs.length → crossIn xs j ≠ 0) ∧
  (∀ (xs : List Byte) (z : Byte), crossOut xs z = 0 ↔ z ∈ xs) ∧
  (∀ (xs : List Byte) (j k : Nat) (hj : j < xs.length) (hk : k < xs.length), j ≠ k → xs[j] = xs[k] →
    crossIn xs j = 0 ∧ crossIn xs k = 0) ∧
  (∀ xs ys : List Byte, xs.Perm ys →
    (∀ z, crossOut xs z = crossOut ys z) ∧
    ∀ (j k : Nat) (hj : j < xs.length) (hk : k < ys.length), xs.Nodup → xs[j] = ys[k] → crossIn xs j = crossIn ys k)

/-! ### The Interpolation Engine -/

/-- 42_interpolation.md R147 with R141 and R142: with the tables ready, valid cross products, and every input byte
written, INTERP writes the interpolated byte at every output row and offset, and changes no other byte and nothing
else. -/
def Obligations.InterpWritesTheInterpolant : Prop :=
  encode .interp = 0x4000000000000000 ∧
  ∀ (s : State) (xs zs : List Byte) (len : Nat) (v : Nat → Nat → Byte), s.Inv → s.ctx.XV = true →
    s.XprodReady xs zs → s.ValuesReady xs.length len v →
    ∃ t : State, exec .interp s = .next t ∧ t = { s with ctx := { s.ctx with OVM := t.ctx.OVM } } ∧
      (∀ i u : Nat, i < zs.length → u < len →
        t.ctx.OVM.read i u = .written (interpolant xs (columnOf v xs.length u) (zs.getD i 0))) ∧
      (∀ i u : Nat, u < 2 ^ 32 → ¬(i < zs.length ∧ u < len) → t.ctx.OVM.read i u = s.ctx.OVM.read i u)

/-- 42_interpolation.md R147: INTERP is undefined when a condition fails, in the order of its pseudocode
(60_exceptions.md R186). -/
def Obligations.InterpConditions : Prop :=
  ∀ s : State,
    (s.TRDY = false → exec .interp s = .fault .tablesNotReady) ∧
    (s.TRDY = true → s.ctx.XV = false → exec .interp s = .fault .staleCross) ∧
    (s.TRDY = true → s.ctx.XV = true → s.ctx.LN = .unwritten → exec .interp s = .fault .unwritten) ∧
    (∀ n len, s.TRDY = true → s.ctx.XV = true → s.ctx.IN = .written n → s.ctx.LN = .written len →
      (∃ j t : Nat, j < n.toNat ∧ t < len.toNat ∧ s.ctx.IVM.read j t = .unwritten) →
      exec .interp s = .fault .unwritten)

/-- 42_interpolation.md R148 with R120, R121, R122, R141, R142: under the conditions of 41_cross_product.md R123, with
every input byte written, TRANSFORM leaves the cross products and the interpolated bytes, sets `XV`, and changes nothing
else; it asks nothing of `XV`, `ICR` or `OCR`. -/
def Obligations.TransformComputesBothStages : Prop :=
  encode .transform = 0x4100000000000000 ∧
  ∀ (s : State) (xs zs : List Byte) (len : Nat) (v : Nat → Nat → Byte), s.TablesFinal →
    s.XprodReady xs zs → s.ValuesReady xs.length len v →
    ∃ t : State, exec .transform s = .next t ∧
      t = { s with ctx := { s.ctx with ICR := t.ctx.ICR, OCR := t.ctx.OCR, XV := true, OVM := t.ctx.OVM } } ∧
      (∀ j : Fin 256, t.ctx.ICR[j] = if j.val < xs.length then .written (crossIn xs j) else .unwritten) ∧
      (∀ i : Fin 256, t.ctx.OCR[i] =
        if i.val < zs.length then .written (crossOut xs (zs.getD i 0)) else .unwritten) ∧
      (∀ i u : Nat, i < zs.length → u < len →
        t.ctx.OVM.read i u = .written (interpolant xs (columnOf v xs.length u) (zs.getD i 0))) ∧
      (∀ i u : Nat, u < 2 ^ 32 → ¬(i < zs.length ∧ u < len) → t.ctx.OVM.read i u = s.ctx.OVM.read i u)

/-- 42_interpolation.md R148: TRANSFORM is XPROD and then INTERP, and a fault of either is a fault of the whole. -/
def Obligations.TransformIsXprodThenInterp : Prop :=
  ∀ s : State,
    (∀ t, exec .xprod s = .next t → exec .transform s = exec .interp t) ∧
    (∀ r, exec .xprod s = .fault r → exec .transform s = .fault r)

/-- 42_interpolation.md R148: TRANSFORM "is a pure function" of the counts, the length, the points, the input bytes and
the tables: two states that agree on these, whatever else differs, both complete or both fault, with the same cross
products and the same output bytes. -/
def Obligations.TransformIsPure : Prop :=
  ∀ s₁ s₂ : State,
    s₁.TRDY = s₂.TRDY → s₁.MULT = s₂.MULT → s₁.INVT = s₂.INVT → s₁.ctx.IN = s₂.ctx.IN → s₁.ctx.ON = s₂.ctx.ON →
    s₁.ctx.LN = s₂.ctx.LN →
    (∀ n, s₁.ctx.IN = .written n → ∀ j : Fin 256, j.val < n.toNat → s₁.ctx.XP[j] = s₂.ctx.XP[j]) →
    (∀ m, s₁.ctx.ON = .written m → ∀ i : Fin 256, i.val < m.toNat → s₁.ctx.ZP[i] = s₂.ctx.ZP[i]) →
    (∀ n len, s₁.ctx.IN = .written n → s₁.ctx.LN = .written len → ∀ j t : Nat, j < n.toNat → t < len.toNat →
      s₁.ctx.IVM.read j t = s₂.ctx.IVM.read j t) →
    ∀ t₁, exec .transform s₁ = .next t₁ →
      ∃ t₂, exec .transform s₂ = .next t₂ ∧ t₁.ctx.ICR = t₂.ctx.ICR ∧ t₁.ctx.OCR = t₂.ctx.OCR ∧
        ∀ m len, s₁.ctx.ON = .written m → s₁.ctx.LN = .written len → ∀ i u : Nat, i < m.toNat → i < 256 →
          u < len.toNat → t₁.ctx.OVM.read i u = t₂.ctx.OVM.read i u

/-- 42_interpolation.md R150: INTERP and TRANSFORM leave untouched every `OVM` byte in a row at or above `ON` or at an
offset at or above `LN`, every byte of `IVM`, and `XP`, `ZP`, `IN`, `ON`, `LN`. -/
def Obligations.InterpolationLeavesTheRest : Prop :=
  ∀ (i : Instr) (s t : State), i = .interp ∨ i = .transform → exec i s = .next t →
    t.ctx.IVM = s.ctx.IVM ∧ t.ctx.XP = s.ctx.XP ∧ t.ctx.ZP = s.ctx.ZP ∧ t.ctx.IN = s.ctx.IN ∧ t.ctx.ON = s.ctx.ON ∧
    t.ctx.LN = s.ctx.LN ∧
    ∀ m len, s.ctx.ON = .written m → s.ctx.LN = .written len →
      ∀ row off : Nat, off < 2 ^ 32 → (m.toNat ≤ row ∨ len.toNat ≤ off) →
        t.ctx.OVM.read row off = s.ctx.OVM.read row off

/-! ### Properties of the interpolation (42_interpolation.md R149) -/

/-- R149 (a): at an output point that equals an input point the output buffer is that input's buffer. -/
def Obligations.CoincidentOutputCopiesInput : Prop :=
  ∀ (s t : State) (xs zs : List Byte) (len : Nat) (v : Nat → Nat → Byte), s.TablesFinal → s.XprodReady xs zs →
    s.ValuesReady xs.length len v → exec .transform s = .next t →
    ∀ (i c : Nat) (hi : i < zs.length) (hc : c < xs.length), zs[i] = xs[c] →
      ∀ u < len, t.ctx.OVM.read i u = s.ctx.IVM.read c u

/-- R149 (b): with `IN = 1` the output at any point is the single input value. -/
def Obligations.SingleInputIsCopied : Prop :=
  ∀ (s t : State) (x : Byte) (zs : List Byte) (len : Nat) (v : Nat → Nat → Byte), s.TablesFinal →
    s.XprodReady [x] zs → s.ValuesReady 1 len v → exec .transform s = .next t →
    ∀ i < zs.length, ∀ u < len, t.ctx.OVM.read i u = s.ctx.IVM.read 0 u

/-- R149 (c): for each offset there is a polynomial of degree below `IN` through the input values, and every output byte,
coincident or not, is its value at the output point. -/
def Obligations.OutputIsTheInterpolatingPolynomial : Prop :=
  ∀ (s t : State) (xs zs : List Byte) (len : Nat) (v : Nat → Nat → Byte), s.TablesFinal → s.XprodReady xs zs →
    s.ValuesReady xs.length len v → exec .transform s = .next t →
    ∀ u < len, ∃ cs : List Byte, cs.length = xs.length ∧
      (∀ (j : Nat) (hj : j < xs.length), polyEval cs xs[j] = v j u) ∧
      ∀ (i : Nat) (hi : i < zs.length), t.ctx.OVM.read i u = .written (polyEval cs zs[i])

/-- R149 (c): a polynomial of degree below `n` is fixed by its values at `n` distinct points. -/
def Obligations.PolynomialFixedByItsValues : Prop :=
  ∀ cs ds xs : List Byte, cs.length = xs.length → ds.length = xs.length → xs.Nodup →
    (∀ x ∈ xs, polyEval cs x = polyEval ds x) → cs = ds

/-- R149 (d) and (e): share a secret at point `x₀` (row 0) with any other inputs, and feed back at least as many of the
resulting shares as there were inputs, at distinct points. Then the output at every point requested is what the first
machine's inputs interpolate to there, whichever shares were chosen (d), and at `x₀` it is the secret (e). The second
machine may be any machine that holds those shares. -/
def Obligations.ReconstructionRecoversTheSecret : Prop :=
  ∀ (s₁ t₁ s₂ t₂ : State) (xs₁ zs₁ xs₂ zs₂ : List Byte) (len : Nat) (v₁ v₂ : Nat → Nat → Byte),
    s₁.TablesFinal → s₁.XprodReady xs₁ zs₁ → s₁.ValuesReady xs₁.length len v₁ → exec .transform s₁ = .next t₁ →
    s₂.TablesFinal → s₂.XprodReady xs₂ zs₂ → s₂.ValuesReady xs₂.length len v₂ → exec .transform s₂ = .next t₂ →
    xs₁.length ≤ xs₂.length →
    (∀ j < xs₂.length, ∃ i < zs₁.length, xs₂.getD j 0 = zs₁.getD i 0 ∧
      ∀ u < len, s₂.ctx.IVM.read j u = t₁.ctx.OVM.read i u) →
    ∀ k < zs₂.length, ∀ u < len,
      t₂.ctx.OVM.read k u = .written (interpolant xs₁ (columnOf v₁ xs₁.length u) (zs₂.getD k 0)) ∧
      (zs₂.getD k 0 = xs₁.getD 0 0 → t₂.ctx.OVM.read k u = s₁.ctx.IVM.read 0 u)

/-! ### Whole-machine rules -/

/-- 10_state.md R39: the state after reset, whatever the parameters and the number of contexts. -/
def Obligations.ResetValues : Prop :=
  ∀ (p : Params) (more : Nat),
    (p.tableInit = .explicit → (State.resetWith p more).TRDY = false ∧ (State.resetWith p more).MULT = .unwritten ∧
      (State.resetWith p more).INVT = .unwritten) ∧
    (p.tableInit = .static → (State.resetWith p more).TRDY = true ∧ (State.resetWith p more).TablesFinal) ∧
    (State.resetWith p more).contexts.length = more + 1 ∧
    ∀ k ∈ (State.resetWith p more).contexts,
      k.XV = false ∧ k.IN = .unwritten ∧ k.ON = .unwritten ∧ k.LN = .unwritten ∧
      (∀ j : Fin 256, k.XP[j] = .unwritten ∧ k.ZP[j] = .unwritten ∧ k.ICR[j] = .unwritten ∧ k.OCR[j] = .unwritten) ∧
      ∀ row off : Nat, k.IVM.read row off = .unwritten ∧ k.OVM.read row off = .unwritten

/-- The invariant holds after reset, whatever the parameters and the number of contexts. -/
def Obligations.InvariantAtReset : Prop := ∀ (p : Params) (more : Nat), (State.resetWith p more).Inv

/-- Every step keeps the invariant: `TRDY` says exactly whether the tables hold their final contents, counts and
lengths stay in range, the memories keep their canonical form inside their space, and `XV = 1` only while `ICR` and
`OCR` hold the cross products of the present counts and points (10_state.md R21 to R27, R33, R34; 20_memory.md R50). -/
def Obligations.StepKeepsInvariant : Prop := ∀ s t : State, s.Inv → step s = .next t → t.Inv

/-- 10_state.md R21, R22, R23: once `TRDY` is 1 no step clears it or changes a table, and no step writes `TRDY` or a
table but one that performs TINIT. -/
def Obligations.TablesNeverChangeOnceReady : Prop :=
  (∀ s t : State, step s = .next t → s.TRDY = true → t.TRDY = true ∧ t.MULT = s.MULT ∧ t.INVT = s.INVT) ∧
  (∀ (i : Instr) (s t : State), i ≠ .tinit → exec i s = .next t →
    t.TRDY = s.TRDY ∧ t.MULT = s.MULT ∧ t.INVT = s.INVT)

/-- 10_state.md R20, the column "written by": each register, register file and memory changes only in a command listed
for it. -/
def Obligations.OnlyListedCommandsWrite : Prop :=
  ∀ (i : Instr) (s t : State), exec i s = .next t →
    (t.ctx.IN ≠ s.ctx.IN → ∃ n, i = .setin n) ∧
    (t.ctx.ON ≠ s.ctx.ON → ∃ n, i = .seton n) ∧
    (t.ctx.LN ≠ s.ctx.LN → ∃ n, i = .setln n) ∧
    (t.ctx.XP ≠ s.ctx.XP → ∃ j x, i = .wrxp j x) ∧
    (t.ctx.ZP ≠ s.ctx.ZP → ∃ j z, i = .wrzp j z) ∧
    (t.ctx.IVM ≠ s.ctx.IVM → ∃ j v u, i = .wriv j v u) ∧
    (t.ctx.OVM ≠ s.ctx.OVM → i = .interp ∨ i = .transform) ∧
    (t.ctx.ICR ≠ s.ctx.ICR ∨ t.ctx.OCR ≠ s.ctx.OCR → i = .xprod ∨ i = .transform) ∧
    (t.ctx.XV = true → s.ctx.XV = false → i = .xprod ∨ i = .transform) ∧
    (t.ctx.XV = false → s.ctx.XV = true →
      (∃ n, i = .setin n) ∨ (∃ n, i = .seton n) ∨ (∃ j x, i = .wrxp j x) ∨ ∃ j z, i = .wrzp j z)

/-- 30_encoding.md R73, 20_memory.md R54: each of the six responding commands delivers exactly one byte and changes
nothing else; the other ten deliver nothing. -/
def Obligations.ResponsesOfACommand : Prop :=
  ∀ (i : Instr) (s t : State), exec i s = .next t →
    (i.responds = true → ∃ v : Byte, t = { s with ctx := { s.ctx with trace := s.ctx.trace ++ [v] } }) ∧
    (i.responds = false → t.ctx.trace = s.ctx.trace)

/-- 60_exceptions.md R185: every reason for which a command can be undefined is one that the table lists for it, and no
command is refused. -/
def Obligations.ReasonsOfACommand : Prop :=
  ∀ (i : Instr) (s : State), s.Inv →
    (∀ r, exec i s = .fault r →
      match r with
      | .illegalCmd => False
      | .tablesNotReady => (∃ a b, i = .gfadd a b) ∨ (∃ a b, i = .gfmul a b) ∨ (∃ a, i = .gfinv a) ∨ i = .xprod ∨
          i = .interp ∨ i = .transform
      | .invZero => i = .gfinv 0
      | .countRange => ∃ n, n > 256 ∧ (i = .setin n ∨ i = .seton n)
      | .lenRange => (∃ n, n > s.params.lnMax.val ∧ i = .setln n) ∨
          (∃ t, t ≥ s.params.lnMax.val ∧ ((∃ j v, i = .wriv j v t) ∨ ∃ j, i = .rdov j t))
      | .inZero => i = .xprod ∨ i = .transform
      | .dupPoint => i = .xprod ∨ i = .transform
      | .staleCross => i = .interp
      | .unwritten => i = .xprod ∨ i = .interp ∨ i = .transform ∨ (∃ j t, i = .rdov j t) ∨ (∃ j, i = .rdic j) ∨
          ∃ j, i = .rdoc j) ∧
    ∀ r, exec i s ≠ .refused r

/-! ### Several contexts -/

/-- 60_exceptions.md R195: a command touches its own context and the shared tables only, and what it does does not
depend on the other contexts or on what is still to be issued. -/
def Obligations.CommandSeesItsOwnContextOnly : Prop :=
  ∀ (i : Instr) (s : State) (b a : List Context) (q : List (Nat × Word)),
    (∀ t, exec i s = .next t →
      t.before = s.before ∧ t.after = s.after ∧ t.issue = s.issue ∧ t.params = s.params ∧
      exec i { s with before := b, after := a, issue := q } = .next { t with before := b, after := a, issue := q }) ∧
    ∀ r, exec i s = .fault r → exec i { s with before := b, after := a, issue := q } = .fault r

/-- 60_exceptions.md R195: a step for one port, whether its command completes or is undefined, leaves every other context
as it is ("context 0 is not affected", 95_test_vectors.md P7). That the words of a stopped context are passed over, and that
its fault is held in its own field, is the model's own choice of form (log 8). -/
def Obligations.StepLeavesOtherContexts : Prop :=
  ∀ (s t : State) (pre post : List (Nat × Word)) (port : Nat) (w : Word), s.issue = pre ++ (port, w) :: post →
    (∀ c ∈ pre, s.Stopped c.1) → s.Running port → step s = .next t →
    t.contexts.length = s.contexts.length ∧ ∀ q, q ≠ port → t.contexts[q]? = s.contexts[q]?

/-- 60_exceptions.md R195: "each context's run is what it would be alone": once the tables are ready, whatever the
interleaving and whatever the other contexts meet, each context ends a run as it ends a run of its own commands on a
machine of its own, and it stops as faulted exactly where it stops alone. That the stop shows as the field `fault` while
another context goes on, and as the step's fault on a machine of its own, is the model's own choice of form (log 8). -/
def Obligations.EachContextRunsAsAlone : Prop :=
  ∀ (k : Nat) (s t : State) (port : Nat) (c d : Context), s.TRDY = true → RunsTo k s t →
    s.contexts[port]? = some c → c.fault = none → t.contexts[port]? = some d →
    (d.fault = none → ∃ k' ≤ k, RunsTo k' (s.alone port c) (t.alone port d)) ∧
    ∀ r, d.fault = some r → ∃ k' ≤ k, Sys2Proof.core.run k' (s.alone port c) = .fault r

/-- 60_exceptions.md R196: after a TINIT of any context, every context finds the tables ready with their final
contents. -/
def Obligations.TinitServesEveryContext : Prop :=
  ∀ (s t u : State) (port : Nat), s.Inv → exec .tinit s = .next t → t.select port = some u →
    u.TRDY = true ∧ u.TablesFinal
end

