-- ==== Sys2Proof/Laws/Codec.lean ====
section
/-! SUPPORT. The fields of a command word and the word of its fields undo each other (spec/30_encoding.md R71), and
masking a word masks its fields. -/

namespace Sys2Proof.Laws

open Sys2Proof.Machine

/-- Every word is the word of its fields. -/
@[simp] theorem toWord_ofWord (w : Word) : (Fields.ofWord w).toWord = w := by
  apply BitVec.eq_of_toNat_eq
  simp only [Fields.toWord, Fields.ofWord, BitVec.toNat_append, BitVec.extractLsb'_toNat, Nat.shiftRight_eq_div_pow]
  have := w.isLt
  rw [← Nat.shiftLeft_add_eq_or_of_lt (by omega), ← Nat.shiftLeft_add_eq_or_of_lt (by omega),
    ← Nat.shiftLeft_add_eq_or_of_lt (by omega), ← Nat.shiftLeft_add_eq_or_of_lt (by omega)]
  simp only [Nat.shiftLeft_eq]
  omega

/-- The number that a word is (30_encoding.md R71). -/
theorem toWord_toNat (f : Fields) :
    f.toWord.toNat =
      f.op.toNat * 2 ^ 56 + f.a.toNat * 2 ^ 48 + f.b.toNat * 2 ^ 40 + f.z.toNat * 2 ^ 32 + f.t.toNat := by
  obtain ⟨op, a, b, z, t⟩ := f
  have h1 := op.isLt
  have h2 := a.isLt
  have h3 := b.isLt
  have h4 := z.isLt
  have h5 := t.isLt
  simp only [Fields.toWord, BitVec.toNat_append]
  rw [← Nat.shiftLeft_add_eq_or_of_lt (by omega), ← Nat.shiftLeft_add_eq_or_of_lt (by omega),
    ← Nat.shiftLeft_add_eq_or_of_lt (by omega), ← Nat.shiftLeft_add_eq_or_of_lt (by omega)]
  simp only [Nat.shiftLeft_eq]
  omega

/-- The fields of the word of some fields are those fields. -/
@[simp] theorem ofWord_toWord (f : Fields) : Fields.ofWord f.toWord = f := by
  have hn := toWord_toNat f
  obtain ⟨op, a, b, z, t⟩ := f
  have h1 := op.isLt
  have h2 := a.isLt
  have h3 := b.isLt
  have h4 := z.isLt
  have h5 := t.isLt
  simp only at hn
  simp only [Fields.ofWord, Fields.mk.injEq]
  refine ⟨?_, ?_, ?_, ?_, ?_⟩ <;> apply BitVec.eq_of_toNat_eq <;>
    simp only [BitVec.extractLsb'_toNat, Nat.shiftRight_eq_div_pow, hn] <;> omega

/-- Masking a word masks its fields. -/
theorem toWord_and (f m : Fields) :
    f.toWord &&& m.toWord = (Fields.mk (f.op &&& m.op) (f.a &&& m.a) (f.b &&& m.b) (f.z &&& m.z) (f.t &&& m.t)).toWord := by
  refine Eq.trans BitVec.and_append ?_
  simp only [Fields.toWord, BitVec.and_append]

end Sys2Proof.Laws
end

