-- ==== Sys2Proof/Laws/Field.lean ====
section
/-! SUPPORT. The multiplication of the model is the one that spec/40_field_arithmetic.md R92 constructs, and its inverses
are those of R94. -/

namespace Sys2Proof.Laws

open Sys2Proof.Machine

/-! ### The formula of R98 is linear in each factor -/

theorem mod_two_mul_xor (x y p : Nat) : (x ^^^ y) % 2 * p = (x % 2 * p) ^^^ (y % 2 * p) := by
  rw [Nat.xor_mod_two_eq]
  rcases Nat.mod_two_eq_zero_or_one x with hx | hx <;> rcases Nat.mod_two_eq_zero_or_one y with hy | hy <;>
    simp [Nat.add_mod, hx, hy]

theorem xor_div_two (x y : Nat) : (x ^^^ y) / 2 = x / 2 ^^^ y / 2 := by
  simpa using Nat.xor_div_two_pow (a := x) (b := y) (n := 1)

theorem xor_four (a b c d : Nat) : (a ^^^ b) ^^^ (c ^^^ d) = (a ^^^ c) ^^^ (b ^^^ d) := by
  rw [Nat.xor_assoc, Nat.xor_assoc, ← Nat.xor_assoc b, Nat.xor_comm b c, Nat.xor_assoc]

theorem sumAtBits_xor (l : List Nat) (x y : Nat) :
    sumAtBits l (x ^^^ y) = sumAtBits l x ^^^ sumAtBits l y := by
  induction l generalizing x y with
  | nil => simp [sumAtBits]
  | cons p ps ih => simp only [sumAtBits, mod_two_mul_xor, xor_div_two, ih, xor_four]

theorem sumAtBits_map_xor (l : List (List Nat)) (f g : List Nat → Nat) (v : Nat) :
    sumAtBits (l.map fun r => f r ^^^ g r) v = sumAtBits (l.map f) v ^^^ sumAtBits (l.map g) v := by
  induction l generalizing v with
  | nil => simp [sumAtBits]
  | cons r rs ih =>
    have h : v % 2 * (f r ^^^ g r) = (v % 2 * f r) ^^^ (v % 2 * g r) := by
      rcases Nat.mod_two_eq_zero_or_one v with hv | hv <;> simp [hv]
    simp only [List.map_cons, sumAtBits, ih, h, xor_four]

theorem mulByBits_xor_left (x y b : Nat) : mulByBits (x ^^^ y) b = mulByBits x b ^^^ mulByBits y b :=
  sumAtBits_xor _ x y

theorem mulByBits_xor_right (a x y : Nat) : mulByBits a (x ^^^ y) = mulByBits a x ^^^ mulByBits a y := by
  simp only [mulByBits, sumAtBits_xor]
  exact sumAtBits_map_xor powerProducts (sumAtBits · x) (sumAtBits · y) a

theorem sumAtBits_lt (l : List Nat) (h : ∀ p ∈ l, p < 2 ^ 8) (v : Nat) : sumAtBits l v < 2 ^ 8 := by
  induction l generalizing v with
  | nil => simp [sumAtBits]
  | cons p ps ih =>
    refine Nat.xor_lt_two_pow ?_ (ih (fun q hq => h q (List.mem_cons_of_mem _ hq)) _)
    have hp := h p (List.mem_cons_self ..)
    rcases Nat.mod_two_eq_zero_or_one v with hv | hv <;> (simp [hv]; try omega)

theorem powerProducts_lt : ∀ row ∈ powerProducts, ∀ p ∈ row, p < 2 ^ 8 := by decide

/-- Every product is a byte (40_field_arithmetic.md R93). -/
theorem mulByBits_lt (a b : Nat) : mulByBits a b < 2 ^ 8 := by
  refine sumAtBits_lt _ ?_ _
  intro p hp
  obtain ⟨row, hrow, rfl⟩ := List.mem_map.1 hp
  exact sumAtBits_lt row (powerProducts_lt row hrow) b

theorem gfMul_toNat (a b : Byte) : (gfMul a b).toNat = mulByBits a.toNat b.toNat := by
  have h := mulByBits_lt a.toNat b.toNat
  simp only [gfMul, BitVec.toNat_ofNat]
  exact Nat.mod_eq_of_lt h

/-- Distributivity on the left (40_field_arithmetic.md R95). -/
theorem gfMul_xor_left (x y b : Byte) : gfMul (x ^^^ y) b = gfMul x b ^^^ gfMul y b := by
  apply BitVec.eq_of_toNat_eq
  simp [gfMul_toNat, mulByBits_xor_left]

/-- Distributivity on the right (40_field_arithmetic.md R95). -/
theorem gfMul_xor_right (a x y : Byte) : gfMul a (x ^^^ y) = gfMul a x ^^^ gfMul a y := by
  apply BitVec.eq_of_toNat_eq
  simp [gfMul_toNat, mulByBits_xor_right]

theorem mulByBits_zero_right (a : Nat) : mulByBits a 0 = 0 := by
  have h := mulByBits_xor_right a 0 0
  simpa using h

theorem mulByBits_zero_left (b : Nat) : mulByBits 0 b = 0 := by
  have h := mulByBits_xor_left 0 0 b
  simpa using h

/-! ### Inverses (R94) -/

/-- For each nonzero `a`, with the inverse of the table of R99: multiplying by one undoes multiplying by the other, on
each power of two. -/
def inverseCheck : Bool :=
  ((List.range 255).zip inverses).all fun (k, i) =>
    (mulByBits (k + 1) i.toNat == 1) && (List.range 8).all fun c => mulByBits i.toNat (mulByBits (k + 1) (2 ^ c)) == 2 ^ c

set_option maxRecDepth 4000 in
theorem inverseCheck_holds : inverseCheck = true := by decide +kernel

theorem inverses_length : inverses.length = 255 := by decide +kernel

/-- What the check says of one entry. -/
theorem inverses_at (k : Nat) (hk : k < 255) :
    ∃ i : Byte, inverses[k]? = some i ∧ mulByBits (k + 1) i.toNat = 1 ∧
      ∀ c < 8, mulByBits i.toNat (mulByBits (k + 1) (2 ^ c)) = 2 ^ c := by
  have hl : k < inverses.length := by rw [inverses_length]; exact hk
  refine ⟨inverses[k], List.getElem?_eq_getElem hl, ?_⟩
  have h := inverseCheck_holds
  rw [inverseCheck, List.all_eq_true] at h
  have hm : (k, inverses[k]) ∈ (List.range 255).zip inverses := by
    rw [List.mem_iff_getElem]
    refine ⟨k, ?_, ?_⟩
    · rw [List.length_zip, List.length_range, inverses_length]; omega
    · rw [List.getElem_zip, List.getElem_range]
  have h1 := h _ hm
  simp only [Bool.and_eq_true, beq_iff_eq, List.all_eq_true, List.mem_range] at h1
  exact h1

theorem two_pow_xor_small : ∀ n < 8, ∀ y < 2 ^ n, 2 ^ n ^^^ y = 2 ^ n + y := by decide +kernel

/-- Two linear maps that agree on each power of two below 256 agree on every byte. -/
theorem eq_of_eq_on_powers (f g : Nat → Nat) (hf : ∀ x y, f (x ^^^ y) = f x ^^^ f y)
    (hg : ∀ x y, g (x ^^^ y) = g x ^^^ g y) (hp : ∀ c < 8, f (2 ^ c) = g (2 ^ c)) (n : Nat) :
    ∀ x < 2 ^ n, n ≤ 8 → f x = g x := by
  have f0 : f 0 = 0 := by have := hf 0 0; simpa using this
  have g0 : g 0 = 0 := by have := hg 0 0; simpa using this
  induction n with
  | zero =>
    intro x hx0 _
    obtain rfl : x = 0 := by omega
    rw [f0, g0]
  | succ n ih =>
    intro x hlt hn
    by_cases hs : x < 2 ^ n
    · exact ih x hs (by omega)
    · have hlow : x - 2 ^ n < 2 ^ n := by rw [pow_succ] at hlt; omega
      have hdec : x = 2 ^ n ^^^ (x - 2 ^ n) := by
        rw [two_pow_xor_small n (by omega) _ hlow]; omega
      rw [hdec, hf, hg, hp n (by omega), ih _ hlow (by omega)]

theorem mulByBits_powers_comm : ∀ r < 8, ∀ c < 8, mulByBits (2 ^ r) (2 ^ c) = mulByBits (2 ^ c) (2 ^ r) := by
  decide +kernel

theorem mulByBits_comm (a b : Nat) (ha : a < 256) (hb : b < 256) : mulByBits a b = mulByBits b a := by
  refine eq_of_eq_on_powers (fun x => mulByBits x b) (fun x => mulByBits b x)
    (fun x y => mulByBits_xor_left x y b) (fun x y => mulByBits_xor_right b x y) (fun r hr => ?_) 8 a ha (le_refl _)
  exact eq_of_eq_on_powers (fun y => mulByBits (2 ^ r) y) (fun y => mulByBits y (2 ^ r))
    (fun x y => mulByBits_xor_right _ x y) (fun x y => mulByBits_xor_left x y _)
    (fun c hc => mulByBits_powers_comm r hr c hc) 8 b hb (le_refl _)

/-- Multiplying by the inverse undoes multiplying. -/
theorem mulByBits_inverse_cancel (a : Nat) (h0 : a ≠ 0) (ha : a < 256) :
    ∃ i : Byte, inverses[a - 1]? = some i ∧ mulByBits a i.toNat = 1 ∧
      ∀ x < 256, mulByBits i.toNat (mulByBits a x) = x := by
  obtain ⟨i, hi, h1, hc⟩ := inverses_at (a - 1) (by omega)
  rw [Nat.sub_add_cancel (by omega)] at h1 hc
  refine ⟨i, hi, h1, fun x hx => ?_⟩
  exact eq_of_eq_on_powers (fun x => mulByBits i.toNat (mulByBits a x)) (fun x => x)
    (fun x y => by simp only [mulByBits_xor_right]) (fun _ _ => rfl) hc 8 x hx (le_refl _)

/-- A product is zero only if a factor is (40_field_arithmetic.md R97). -/
theorem mulByBits_ne_zero (a b : Nat) (ha0 : a ≠ 0) (ha : a < 256) (hb0 : b ≠ 0) (hb : b < 256) :
    mulByBits a b ≠ 0 := by
  intro h
  obtain ⟨i, -, -, hc⟩ := mulByBits_inverse_cancel a ha0 ha
  have := hc b hb
  rw [h, mulByBits_zero_right] at this
  exact hb0 this.symm

/-! ### The formula of R98 is the construction of R92 -/

theorem sumAtBits_testBit (l : List Nat) (v t : Nat) (h : (sumAtBits l v).testBit t = true) :
    ∃ k, ∃ hk : k < l.length, v.testBit k = true ∧ (l[k]).testBit t = true := by
  induction l generalizing v with
  | nil => simp [sumAtBits] at h
  | cons p ps ih =>
    rw [sumAtBits, Nat.testBit_xor] at h
    by_cases h1 : (sumAtBits ps (v / 2)).testBit t = true
    · obtain ⟨k, hk, hv, hp⟩ := ih _ h1
      refine ⟨k + 1, by simpa using hk, ?_, by simpa using hp⟩
      rwa [Nat.testBit_succ]
    · have h2 : (v % 2 * p).testBit t = true := by
        cases hb : (v % 2 * p).testBit t <;> simp_all
      rcases Nat.mod_two_eq_zero_or_one v with hv | hv
      · simp [hv] at h2
      · refine ⟨0, by simp, ?_, by simpa [hv] using h2⟩
        simp [Nat.testBit_zero, hv]

/-- A set bit of a product comes from a pair of set bits of its factors. -/
theorem mulByBits_testBit (a b t : Nat) (h : (mulByBits a b).testBit t = true) :
    ∃ r < 8, ∃ c < 8, a.testBit r = true ∧ b.testBit c = true ∧
      ((powerProducts.getD r []).getD c 0).testBit t = true := by
  obtain ⟨r, hr, ha, h1⟩ := sumAtBits_testBit _ _ _ h
  rw [List.getElem_map] at h1
  obtain ⟨c, hc, hb, h2⟩ := sumAtBits_testBit _ _ _ h1
  rw [List.length_map] at hr
  have hrow : ∀ row ∈ powerProducts, row.length = 8 := by decide
  have hr8 : r < 8 := hr
  have hc8 : c < 8 := by rw [← hrow _ (List.getElem_mem hr)]; exact hc
  refine ⟨r, hr8, c, hc8, ha, hb, ?_⟩
  rw [List.getD_eq_getElem _ _ hr, List.getD_eq_getElem _ _ hc]
  exact h2

/-- The bytes with top bit `r`, each with its inverse. -/
def withTopBit (r : Nat) : List (Nat × Byte) :=
  (List.range' (2 ^ r) (2 ^ r)).zip (inverses.drop (2 ^ r - 1))

/-- For every byte `v` with top bit `t` some byte `u` with top bit `r` makes `v / u` a byte with top bit `c`. -/
def splitCheck (r c t : Nat) : Bool :=
  (List.range' (2 ^ t) (2 ^ t)).all fun v => (withTopBit r).any fun (_, i) =>
    let w := mulByBits i.toNat v
    decide (2 ^ c ≤ w) && decide (w < 2 ^ (c + 1))

/-- The check at every bit `t` that is set in some `mul(2^r, 2^c)` with `c` at or above `r`. -/
def splitRow (r : Nat) : Bool :=
  (List.range' r (8 - r)).all fun c => (List.range 8).all fun t =>
    !((powerProducts.getD r []).getD c 0).testBit t || splitCheck r c t

set_option maxRecDepth 4000 in
theorem splitRow_holds : ∀ r < 8, splitRow r = true := by decide +kernel

/-- One member of `withTopBit`: it has that top bit, and its partner is its inverse. -/
theorem mem_withTopBit (r : Nat) (u : Nat) (i : Byte) (h : (u, i) ∈ withTopBit r) :
    2 ^ r ≤ u ∧ u < 2 ^ (r + 1) ∧ inverses[u - 1]? = some i := by
  obtain ⟨k, hk, he⟩ := List.mem_iff_getElem.1 h
  simp only [withTopBit, List.getElem_zip, List.getElem_range', List.getElem_drop, Prod.mk.injEq, one_mul] at he
  rw [withTopBit, List.length_zip, List.length_range', List.length_drop] at hk
  obtain ⟨rfl, rfl⟩ := he
  have h1 : 0 < 2 ^ r := Nat.two_pow_pos r
  refine ⟨by omega, by rw [pow_succ]; omega, ?_⟩
  have hidx : 2 ^ r + k - 1 = 2 ^ r - 1 + k := by omega
  rw [hidx]
  exact List.getElem?_eq_getElem _

theorem powerProducts_symm : ∀ r < 8, ∀ c < 8,
    (powerProducts.getD r []).getD c 0 = (powerProducts.getD c []).getD r 0 := by decide

/-- Where bit `t` of `mul(2^r, 2^c)` is set, every byte with top bit `t` is a product of one with top bit `r` and one
with top bit `c`. -/
theorem split_of_bit (r c t v : Nat) (hr : r < 8) (hc : c < 8) (ht : t < 8)
    (hb : ((powerProducts.getD r []).getD c 0).testBit t = true) (hv : 2 ^ t ≤ v) (hv2 : v < 2 ^ (t + 1)) :
    ∃ u w, 2 ^ r ≤ u ∧ u < 2 ^ (r + 1) ∧ 2 ^ c ≤ w ∧ w < 2 ^ (c + 1) ∧ mulByBits u w = v := by
  have top : ∀ k < 8, 2 ^ (k + 1) ≤ 256 := by decide
  wlog hrc : r ≤ c generalizing r c
  · obtain ⟨u, w, h1, h2, h3, h4, h5⟩ := this c r hc hr (by rw [powerProducts_symm c hc r hr]; exact hb) (by omega)
    have := top r hr
    have := top c hc
    exact ⟨w, u, h3, h4, h1, h2, by rw [mulByBits_comm w u (by omega) (by omega)]; exact h5⟩
  have h := splitRow_holds r hr
  rw [splitRow, List.all_eq_true] at h
  have h1 := h c (by rw [List.mem_range'_1]; omega)
  rw [List.all_eq_true] at h1
  have h2 := h1 t (List.mem_range.2 ht)
  rw [hb] at h2
  simp only [Bool.not_true, Bool.false_or] at h2
  rw [splitCheck, List.all_eq_true] at h2
  have h3 := h2 v (by rw [List.mem_range'_1]; constructor <;> [exact hv; (rw [pow_succ] at hv2; omega)])
  obtain ⟨⟨u, i⟩, hm, hw⟩ := List.any_eq_true.1 h3
  simp only [Bool.and_eq_true, decide_eq_true_eq] at hw
  obtain ⟨hu1, hu2, hi⟩ := mem_withTopBit r u i hm
  have hpos : 0 < 2 ^ r := Nat.two_pow_pos r
  have hu256 := top r hr
  have hw256 := top c hc
  have hv256 := top t ht
  refine ⟨u, mulByBits i.toNat v, hu1, hu2, hw.1, hw.2, ?_⟩
  -- multiplying by the inverse is injective, and both sides have the same product with it
  obtain ⟨i', hi', hone, hcancel⟩ := mulByBits_inverse_cancel u (by omega) (by omega)
  obtain rfl : i' = i := by rw [hi] at hi'; exact (Option.some.inj hi').symm
  have hin : i'.toNat ≠ 0 := by
    intro h0
    rw [h0, mulByBits_zero_right] at hone
    omega
  by_contra hne
  have hx : mulByBits u (mulByBits i'.toNat v) ^^^ v ≠ 0 := fun h0 => hne (Nat.xor_eq_zero_iff.1 h0)
  refine mulByBits_ne_zero i'.toNat _ hin i'.isLt hx (Nat.xor_lt_two_pow (n := 8) (mulByBits_lt _ _) (by omega)) ?_
  rw [mulByBits_xor_right, hcancel _ (mulByBits_lt _ _), Nat.xor_self]

theorem top_bit_set (n p : Nat) (h : n < p) (t : Nat) (hv : (p ^^^ n).testBit t = true)
    (habove : ∀ j, t < j → (p ^^^ n).testBit j = false) : p.testBit t = true := by
  by_contra hp
  rw [Bool.not_eq_true] at hp
  have hn : n.testBit t = true := by rw [Nat.testBit_xor, hp] at hv; simpa using hv
  have : p < n := Nat.lt_of_testBit t hp hn (fun j hj => by
    have := habove j hj
    rw [Nat.testBit_xor] at this
    simpa using this)
  omega

/-- Clearing a set bit from the top of a difference makes a number smaller. -/
theorem xor_lt_of_top_bit (a u r : Nat) (ha : a.testBit r = true) (hu : 2 ^ r ≤ u) (hu2 : u < 2 ^ (r + 1)) :
    a ^^^ u < a := by
  have hur : u.testBit r = true := by
    have h := Nat.testBit_two_pow_add_eq (u - 2 ^ r) r
    rw [Nat.add_sub_cancel' hu] at h
    rw [h, Nat.testBit_lt_two_pow (by rw [pow_succ] at hu2; omega)]
    rfl
  refine Nat.lt_of_testBit r (by rw [Nat.testBit_xor, ha, hur]; rfl) ha (fun j hj => ?_)
  rw [Nat.testBit_xor, Nat.testBit_lt_two_pow (lt_of_lt_of_le hu2 (Nat.pow_le_pow_right (by omega) hj)), Bool.xor_false]

/-- Membership in `E(a, b)`. -/
theorem mem_mexSet (f : Nat → Nat → Nat) (a b n : Nat) :
    n ∈ mexSet f a b ↔ ∃ a' < a, ∃ b' < b, f a' b ^^^ f a b' ^^^ f a' b' = n := by
  simp only [mexSet, List.mem_flatMap, List.mem_map, List.mem_range]

/-- The expression of R92 at a smaller pair, in terms of the two differences. -/
theorem mex_expression (a b u w : Nat) :
    mulByBits (a ^^^ u) b ^^^ mulByBits a (b ^^^ w) ^^^ mulByBits (a ^^^ u) (b ^^^ w) =
      mulByBits a b ^^^ mulByBits u w := by
  simp only [mulByBits_xor_left, mulByBits_xor_right]
  generalize mulByBits a b = p
  generalize mulByBits u b = q
  generalize mulByBits a w = x
  generalize mulByBits u w = y
  apply Nat.eq_of_testBit_eq
  intro i
  simp only [Nat.testBit_xor]
  cases p.testBit i <;> cases q.testBit i <;> cases x.testBit i <;> cases y.testBit i <;> rfl

/-- The product is not in `E(a, b)`. -/
theorem mulByBits_not_mem (a b : Nat) (ha : a < 256) (hb : b < 256) : mulByBits a b ∉ mexSet mulByBits a b := by
  rw [mem_mexSet]
  rintro ⟨a', ha', b', hb', h⟩
  have hA : a' = a ^^^ (a ^^^ a') := by rw [← Nat.xor_assoc, Nat.xor_self, Nat.zero_xor]
  have hB : b' = b ^^^ (b ^^^ b') := by rw [← Nat.xor_assoc, Nat.xor_self, Nat.zero_xor]
  rw [hA, hB, mex_expression] at h
  have h0 : mulByBits (a ^^^ a') (b ^^^ b') = 0 := by
    have := congrArg (mulByBits a b ^^^ ·) h
    simpa [← Nat.xor_assoc] using this
  refine mulByBits_ne_zero (a ^^^ a') (b ^^^ b') (fun h1 => ?_) (Nat.xor_lt_two_pow (n := 8) ha (by omega))
    (fun h1 => ?_) (Nat.xor_lt_two_pow (n := 8) hb (by omega)) h0
  · have := Nat.xor_eq_zero_iff.1 h1; omega
  · have := Nat.xor_eq_zero_iff.1 h1; omega

/-- Every smaller number is in `E(a, b)`. -/
theorem mem_of_lt_mulByBits (a b n : Nat) (hn : n < mulByBits a b) : n ∈ mexSet mulByBits a b := by
  have hp := mulByBits_lt a b
  have hv0 : mulByBits a b ^^^ n ≠ 0 := fun h => by have := Nat.xor_eq_zero_iff.1 h; omega
  have hv8 : mulByBits a b ^^^ n < 2 ^ 8 := Nat.xor_lt_two_pow hp (by omega)
  obtain ⟨t, ht⟩ : ∃ t, t = Nat.log2 (mulByBits a b ^^^ n) := ⟨_, rfl⟩
  have ht8 : t < 8 := by rw [ht]; exact (Nat.log2_lt hv0).2 hv8
  have hlow : 2 ^ t ≤ mulByBits a b ^^^ n := by rw [ht]; exact Nat.log2_self_le hv0
  have hhigh : mulByBits a b ^^^ n < 2 ^ (t + 1) := by rw [ht]; exact Nat.lt_log2_self
  have htop : (mulByBits a b).testBit t = true := by
    refine top_bit_set n _ hn t ?_ (fun j hj => ?_)
    · have h := Nat.testBit_two_pow_add_eq ((mulByBits a b ^^^ n) - 2 ^ t) t
      rw [Nat.add_sub_cancel' hlow] at h
      rw [h, Nat.testBit_lt_two_pow (by rw [pow_succ] at hhigh; omega)]
      rfl
    · exact Nat.testBit_lt_two_pow (lt_of_lt_of_le hhigh (Nat.pow_le_pow_right (by omega) hj))
  obtain ⟨r, hr, c, hc, har, hbc, hb⟩ := mulByBits_testBit a b t htop
  obtain ⟨u, w, hu1, hu2, hw1, hw2, huw⟩ := split_of_bit r c t _ hr hc ht8 hb hlow hhigh
  rw [mem_mexSet]
  refine ⟨a ^^^ u, xor_lt_of_top_bit a u r har hu1 hu2, b ^^^ w, xor_lt_of_top_bit b w c hbc hw1 hw2, ?_⟩
  rw [mex_expression, huw, ← Nat.xor_assoc, Nat.xor_self, Nat.zero_xor]

/-- What the smallest non-member is. -/
theorem smallestNonMember_eq (l : List Nat) (m : Nat) (hm : m ∉ l) (h : ∀ n < m, n ∈ l) : smallestNonMember l = m := by
  have hlen : m ≤ l.length := by
    have hs : (List.range m).Subperm l :=
      List.nodup_range.subperm (fun n hn => h n (List.mem_range.1 hn))
    simpa using hs.length_le
  have hf : (List.range (l.length + 1)).find? (fun n => !l.contains n) = some m := by
    rw [List.find?_range_eq_some]
    refine ⟨by simpa using hm, by rw [List.mem_range]; omega, fun j hj => ?_⟩
    simpa using h j hj
  rw [smallestNonMember, hf, Option.getD_some]

theorem mexMulDepth_eq (d a b : Nat) (hd : a + b < d) (ha : a < 256) (hb : b < 256) :
    mexMulDepth d a b = mulByBits a b := by
  induction d generalizing a b with
  | zero => omega
  | succ d ih =>
    have hset : mexSet (mexMulDepth d) a b = mexSet mulByBits a b := by
      simp only [mexSet]
      rw [List.flatMap_eq_foldl, List.flatMap_eq_foldl]
      apply List.foldl_ext
      intro acc a' ha'
      have ha' := List.mem_range.1 ha'
      congr 1
      apply List.map_congr_left
      intro b' hb'
      have hb' := List.mem_range.1 hb'
      rw [ih a' b (by omega) (by omega) hb, ih a b' (by omega) ha (by omega), ih a' b' (by omega) (by omega) (by omega)]
    rw [mexMulDepth, hset]
    exact smallestNonMember_eq _ _ (mulByBits_not_mem a b ha hb) (fun n hn => mem_of_lt_mulByBits a b n hn)

/-- The model's multiplication is the one of 40_field_arithmetic.md R92. -/
theorem mexMul_eq_gfMul (a b : Byte) : mexMul a.toNat b.toNat = (gfMul a b).toNat := by
  rw [gfMul_toNat, mexMul]
  exact mexMulDepth_eq _ _ _ (by omega) a.isLt b.isLt

/-- The model's inverse is the one of 40_field_arithmetic.md R94: none at zero, else the `b` with `mul(a, b) = 1`. -/
theorem gfInv_spec (a : Byte) : (a = 0 ∧ gfInv a = none) ∨ (a ≠ 0 ∧ ∃ i, gfInv a = some i ∧ gfMul a i = 1) := by
  by_cases h : a = 0
  · exact .inl ⟨h, by simp [gfInv, h]⟩
  · refine .inr ⟨h, ?_⟩
    have h0 : a.toNat ≠ 0 := fun h1 => h (BitVec.eq_of_toNat_eq (by simpa using h1))
    obtain ⟨i, hi, h1, -⟩ := mulByBits_inverse_cancel a.toNat h0 a.isLt
    refine ⟨i, by rw [gfInv, if_neg h, hi], BitVec.eq_of_toNat_eq ?_⟩
    rw [gfMul_toNat, h1]
    rfl

end Sys2Proof.Laws
end

