-- ==== Sys2Proof/Laws/Locations.lean ====
section
/-! SUPPORT. Reading locations and register files, and the tables: what each shared operation answers, said once. -/

namespace Sys2Proof.Laws

open Sys2Proof.Machine

/-! ### Locations -/

@[simp] theorem get_written {α : Type} (v : α) : (Loc.written v).get = .ok v := rfl

@[simp] theorem ofOption_none {α : Type} : Loc.ofOption (none : Option α) = .unwritten := rfl
@[simp] theorem ofOption_some {α : Type} (v : α) : Loc.ofOption (some v) = .written v := rfl
@[simp] theorem get_unwritten {α : Type} : (Loc.unwritten : Loc α).get = .error .unwritten := rfl

theorem get_eq_ok {α : Type} (l : Loc α) (v : α) : l.get = .ok v ↔ l = .written v := by
  cases l <;> simp [Loc.get]

theorem get_eq_error {α : Type} (l : Loc α) (r : Fault) : l.get = .error r ↔ l = .unwritten ∧ r = .unwritten := by
  cases l <;> simp [Loc.get, eq_comm]

/-! ### All the values, or the first fault -/

/-- `collect` answers exactly when every member does. -/
theorem collect_eq_ok {α : Type} (l : List (Except Fault α)) (vs : List α) :
    collect l = .ok vs ↔ l = vs.map .ok := by
  induction l generalizing vs with
  | nil => cases vs <;> simp [collect]
  | cons e rest ih =>
    cases e with
    | error r => cases vs <;> simp [collect]
    | ok v =>
      cases h : collect rest with
      | error r =>
        cases vs with
        | nil => simp [collect, h]
        | cons w ws =>
          simp only [collect, h, List.map_cons, List.cons.injEq, reduceCtorEq, false_iff, not_and]
          rintro - h2
          have := (ih ws).2 h2
          rw [h] at this
          cases this
      | ok us =>
        have hus := (ih us).1 h
        cases vs with
        | nil => simp [collect, h]
        | cons w ws =>
          simp only [collect, h, List.map_cons, List.cons.injEq, Except.ok.injEq]
          constructor
          · rintro ⟨rfl, rfl⟩; exact ⟨rfl, hus⟩
          · rintro ⟨rfl, h2⟩
            have := (ih ws).2 h2
            rw [h] at this
            exact ⟨rfl, Except.ok.inj this⟩

/-- A fault of `collect` is a fault of some member. -/
theorem collect_eq_error {α : Type} (l : List (Except Fault α)) (r : Fault) (h : collect l = .error r) :
    .error r ∈ l := by
  induction l with
  | nil => simp [collect] at h
  | cons e rest ih =>
    cases e with
    | error r' =>
      simp only [collect, Except.error.injEq] at h
      simp [h]
    | ok v =>
      cases hc : collect rest with
      | error r' =>
        simp only [collect, hc, Except.error.injEq] at h
        exact List.mem_cons_of_mem _ (ih (by rw [hc, h]))
      | ok us => simp [collect, hc] at h

/-- Members that all answer. -/
theorem collect_map_ok {α β : Type} (l : List α) (f : α → Except Fault β) (g : α → β)
    (h : ∀ x ∈ l, f x = .ok (g x)) : collect (l.map f) = .ok (l.map g) := by
  rw [collect_eq_ok, List.map_map]
  exact List.map_congr_left h

/-! ### Vectors given by their entries -/

theorem tabulate_toList {α : Type} (n : Nat) (f : Nat → α) : (tabulate n f).toList = (List.range n).map f := rfl

@[simp] theorem tabulate_getElem {α : Type} (n : Nat) (f : Nat → α) (i : Nat) (h : i < n) :
    (tabulate n f)[i] = f i := by
  have : (tabulate n f)[i] = (tabulate n f).toList[i]'(by simpa using h) := by simp
  rw [this]
  simp only [tabulate_toList, List.getElem_map, List.getElem_range]

/-! ### Register files -/

/-- Entry `j` of the file made from a list. -/
theorem ofList_getElem (l : List Byte) (j : Nat) (h : j < 256) :
    (RegFile.ofList l)[j] = match l[j]? with | some v => .written v | none => .unwritten := by
  refine (tabulate_getElem 256 _ j h).trans ?_
  cases l[j]? <;> rfl

theorem ofList_getElem_lt (l : List Byte) (j : Nat) (h : j < 256) (hl : j < l.length) :
    (RegFile.ofList l)[j] = .written l[j] := by
  rw [ofList_getElem l j h, List.getElem?_eq_getElem hl]

theorem ofList_getElem_ge (l : List Byte) (j : Nat) (h : j < 256) (hl : l.length ≤ j) :
    (RegFile.ofList l)[j] = .unwritten := by
  rw [ofList_getElem l j h, List.getElem?_eq_none hl]

@[simp] theorem regFile_write_same (f : RegFile) (j : Fin 256) (v : Byte) : (f.write j v)[j] = .written v := by
  simp [RegFile.write]

theorem regFile_write_other (f : RegFile) (j k : Fin 256) (v : Byte) (h : k ≠ j) : (f.write j v)[k] = f[k] := by
  have : (j : Nat) ≠ k := fun e => h (Fin.ext e.symm)
  simp [RegFile.write, Vector.getElem_set_ne _ _ this]

/-- The first entries are read exactly when each is written. -/
theorem first_eq_ok (f : RegFile) (n : Nat) (l : List Byte) :
    f.first n = .ok l ↔ l.length = min n 256 ∧ ∀ j (h : j < l.length) (h' : j < 256), f[j] = .written l[j] := by
  rw [RegFile.first, collect_eq_ok]
  constructor
  · intro h
    have hl : l.length = min n 256 := by
      have := congrArg List.length h
      simpa using this.symm
    refine ⟨hl, fun j hj h' => ?_⟩
    have hj2 : j < ((f.toList.take n).map Loc.get).length := by simp; omega
    have := List.getElem_of_eq h hj2
    simp only [List.getElem_map, List.getElem_take, Vector.getElem_toList] at this
    exact (get_eq_ok _ _).1 this
  · rintro ⟨hl, h⟩
    refine List.ext_getElem (by simp [hl]) (fun j h1 h2 => ?_)
    simp only [List.length_map, List.length_take, Vector.length_toList] at h1 h2
    simp only [List.getElem_map, List.getElem_take, Vector.getElem_toList]
    rw [h j h2 (by omega)]
    rfl

/-- The first entries fault exactly when one of them is unwritten. -/
theorem first_eq_error (f : RegFile) (n : Nat) (r : Fault) (h : f.first n = .error r) :
    r = .unwritten ∧ ∃ j, ∃ h' : j < 256, j < n ∧ f[j] = .unwritten := by
  have := collect_eq_error _ _ h
  obtain ⟨e, he, hr⟩ := List.mem_map.1 this
  obtain ⟨hu, rfl⟩ := (get_eq_error _ _).1 hr
  obtain ⟨j, hj, rfl⟩ := List.mem_iff_getElem.1 he
  simp only [List.length_take, Vector.length_toList] at hj
  refine ⟨rfl, j, by omega, by omega, ?_⟩
  simpa using hu

/-- The first entries of two files that agree there read alike. -/
theorem first_congr (f g : RegFile) (n : Nat) (h : ∀ j (h' : j < 256), j < n → f[j] = g[j]) :
    f.first n = g.first n := by
  have : f.toList.take n = g.toList.take n := by
    refine List.ext_getElem (by simp) (fun j h1 h2 => ?_)
    simp only [List.length_take, Vector.length_toList] at h1
    simpa using h j (by omega) (by omega)
  rw [RegFile.first, RegFile.first, this]

/-- A file made from a list of at most 256 bytes holds that list. -/
theorem first_ofList (l : List Byte) (h : l.length ≤ 256) : (RegFile.ofList l).first l.length = .ok l := by
  rw [first_eq_ok]
  exact ⟨by omega, fun j hj h' => ofList_getElem_lt l j h' hj⟩

/-! ### The tables -/

/-- One read of the final `MULT` is a product (40_field_arithmetic.md R93). -/
theorem multTable_mul : multTable.mul = gfMul := by
  funext a b
  simp [MulTable.mul, multTable]

/-- One read of the final `INVT` is an inverse (40_field_arithmetic.md R94). -/
theorem invTable_inv : invTable.inv = fieldArith.inv := by
  funext a
  rcases gfInv_spec a with ⟨rfl, hn⟩ | ⟨ha, i, hi, -⟩
  · simp only [fieldArith, hn]
    rfl
  · have h0 : a.toNat ≠ 0 := fun h1 => ha (BitVec.eq_of_toNat_eq (by simpa using h1))
    have hl : inverses[a.toNat - 1]? = some i := by rwa [gfInv, if_neg ha] at hi
    have hv : inverses.getD (a.toNat - 1) 0 = i := by rw [List.getD_eq_getElem?_getD, hl]; rfl
    simp only [fieldArith, hi, InvTable.inv, h0, dite_false, invTable, tabulate_getElem, hv]

theorem mulOf_final (s : State) (h : s.MULT = .written multTable) : s.mulOf = .ok gfMul := by
  simp only [State.mulOf, h, get_written]
  exact congrArg Except.ok multTable_mul

theorem arith_final (s : State) (h : s.MULT = .written multTable) (h' : s.INVT = .written invTable) :
    s.arith = .ok fieldArith := by
  simp only [State.arith, h, h', get_written]
  show Except.ok { mul := multTable.mul, inv := invTable.inv } = Except.ok fieldArith
  rw [multTable_mul, invTable_inv]
  rfl

end Sys2Proof.Laws
end

