-- ==== Sys2Proof/Laws/Memory.lean ====
section
/-! SUPPORT. The value memories: a read after a write, what a write leaves alone, and that every write keeps the
canonical form and stays inside the address space (spec/20_memory.md R50). -/

namespace Sys2Proof.Laws

open Sys2Proof.Machine

/-! ### One byte -/

@[simp] theorem atKey_putKey_same (m : Memory) (k : Nat) (v : Byte) : (m.putKey k v).atKey k = .written v := by
  induction m with
  | nil => simp [Memory.putKey, Memory.atKey]
  | cons c m ih =>
    obtain ⟨k', w⟩ := c
    simp only [Memory.putKey]
    split
    · simp [Memory.atKey]
    · split
      · simp [Memory.atKey]
      · rename_i h
        simp [Memory.atKey, h, ih]

theorem atKey_putKey_other (m : Memory) (k k' : Nat) (v : Byte) (h : k' ≠ k) :
    (m.putKey k v).atKey k' = m.atKey k' := by
  induction m with
  | nil => simp [Memory.putKey, Memory.atKey, h]
  | cons c m ih =>
    obtain ⟨k₁, w⟩ := c
    simp only [Memory.putKey]
    split
    · simp [Memory.atKey, h]
    · split
      · rename_i h₁
        subst h₁
        simp [Memory.atKey, h]
      · simp only [Memory.atKey, ih]

/-- Two offsets below `2^32` give one key only in one row at one offset. -/
theorem memKey_inj (r r' t t' : Nat) (ht : t < 2 ^ 32) (ht' : t' < 2 ^ 32) (h : memKey r t = memKey r' t') :
    r = r' ∧ t = t' := by
  simp only [memKey] at h
  omega

@[simp] theorem read_write_same (m : Memory) (r t : Nat) (v : Byte) : (m.write r t v).read r t = .written v :=
  atKey_putKey_same m _ v

theorem read_write_other (m : Memory) (r t r' t' : Nat) (v : Byte) (ht : t < 2 ^ 32) (ht' : t' < 2 ^ 32)
    (h : ¬(r' = r ∧ t' = t)) : (m.write r t v).read r' t' = m.read r' t' :=
  atKey_putKey_other m _ _ v (fun e => h (memKey_inj _ _ _ _ ht' ht e))

/-! ### Rows -/

/-- What a memory holds after bytes are written at rising offsets of one row. -/
theorem read_writeRow (vs : List Byte) (m : Memory) (r off r' t : Nat) (hoff : off + vs.length ≤ 2 ^ 32)
    (ht : t < 2 ^ 32) :
    (m.writeRow r off vs).read r' t =
      if r' = r ∧ off ≤ t then (match vs[t - off]? with | some v => .written v | none => m.read r' t)
      else m.read r' t := by
  induction vs generalizing m off with
  | nil => simp [Memory.writeRow]
  | cons v vs ih =>
    simp only [List.length_cons] at hoff
    rw [Memory.writeRow, ih _ _ (by omega)]
    by_cases hr : r' = r
    · subst hr
      by_cases h1 : t = off
      · subst h1
        have : ¬(t + 1 ≤ t) := by omega
        simp [this]
      · rw [read_write_other m r' off r' t v (by omega) ht (by omega)]
        by_cases h2 : off ≤ t
        · have h3 : t - off = t - (off + 1) + 1 := by omega
          have h4 : off + 1 ≤ t := by omega
          simp [h2, h4, h3]
        · have h4 : ¬(off + 1 ≤ t) := by omega
          simp [h2, h4]
    · simp only [hr, false_and, if_false]
      exact read_write_other m r off r' t v (by omega) ht (by omega)

/-- What a memory holds after rows of bytes are written at rising row numbers. -/
theorem read_writeRows (rows : List (List Byte)) (m : Memory) (r₀ r t : Nat)
    (hlen : ∀ row ∈ rows, row.length ≤ 2 ^ 32) (ht : t < 2 ^ 32) :
    (m.writeRows r₀ rows).read r t =
      if r₀ ≤ r then
        (match rows[r - r₀]? with
          | some row => (match row[t]? with | some v => .written v | none => m.read r t)
          | none => m.read r t)
      else m.read r t := by
  induction rows generalizing m r₀ with
  | nil => simp [Memory.writeRows]
  | cons row rows ih =>
    rw [Memory.writeRows, ih _ _ (fun x hx => hlen x (List.mem_cons_of_mem _ hx))]
    have hrow := read_writeRow row m r₀ 0 r t (by simpa using hlen row (List.mem_cons_self ..)) ht
    simp only [Nat.zero_le, and_true, Nat.sub_zero] at hrow
    rw [hrow]
    by_cases h1 : r = r₀
    · subst h1
      have : ¬(r + 1 ≤ r) := by omega
      simp [this]
    · by_cases h2 : r₀ ≤ r
      · have h3 : r - r₀ = r - (r₀ + 1) + 1 := by omega
        have h4 : r₀ + 1 ≤ r := by omega
        simp [h1, h2, h4, h3]
      · have h4 : ¬(r₀ + 1 ≤ r) := by omega
        simp [h1, h2, h4]

/-! ### The canonical form -/

/-- The canonical form is the keys in strict order. -/
theorem wf_iff (m : Memory) : m.wf = true ↔ (m.map (·.1)).Pairwise (· < ·) := by
  induction m with
  | nil => simp [Memory.wf]
  | cons c m ih =>
    obtain ⟨k, v⟩ := c
    cases m with
    | nil => simp [Memory.wf]
    | cons d m =>
      obtain ⟨k', v'⟩ := d
      rw [Memory.wf, Bool.and_eq_true, decide_eq_true_eq, ih]
      simp only [List.map_cons, List.pairwise_cons, List.mem_cons, List.mem_map]
      constructor
      · rintro ⟨h1, h2, h3⟩
        refine ⟨?_, h2, h3⟩
        rintro a (rfl | ⟨x, hx, rfl⟩)
        · exact h1
        · exact lt_trans h1 (h2 _ ⟨x, hx, rfl⟩)
      · rintro ⟨h1, h2, h3⟩
        exact ⟨h1 _ (.inl rfl), h2, h3⟩

theorem mem_putKey (m : Memory) (k : Nat) (v : Byte) (c : Host.Cell) (h : c ∈ m.putKey k v) :
    c = (k, v) ∨ c ∈ m := by
  induction m with
  | nil => simpa [Memory.putKey] using h
  | cons d m ih =>
    obtain ⟨k', w⟩ := d
    simp only [Memory.putKey] at h
    split at h
    · simpa using h
    · split at h
      · rcases List.mem_cons.1 h with h | h
        · exact .inl h
        · exact .inr (List.mem_cons_of_mem _ h)
      · rcases List.mem_cons.1 h with h | h
        · exact .inr (by simp [h])
        · rcases ih h with h | h
          · exact .inl h
          · exact .inr (List.mem_cons_of_mem _ h)

theorem putKey_wf (m : Memory) (k : Nat) (v : Byte) (h : m.wf = true) : (m.putKey k v).wf = true := by
  rw [wf_iff] at h ⊢
  induction m with
  | nil => simp [Memory.putKey]
  | cons c m ih =>
    obtain ⟨k', w⟩ := c
    simp only [List.map_cons, List.pairwise_cons] at h
    obtain ⟨h1, h2⟩ := h
    simp only [Memory.putKey]
    split
    · rename_i hlt
      simp only [List.map_cons, List.pairwise_cons, List.mem_cons]
      refine ⟨?_, h1, h2⟩
      rintro a (rfl | ha)
      · exact hlt
      · exact lt_trans hlt (h1 a ha)
    · split
      · rename_i he
        subst he
        simp only [List.map_cons, List.pairwise_cons]
        exact ⟨h1, h2⟩
      · rename_i hlt hne
        simp only [List.map_cons, List.pairwise_cons]
        refine ⟨fun a ha => ?_, ih h2⟩
        obtain ⟨c, hc, rfl⟩ := List.mem_map.1 ha
        rcases mem_putKey m k v c hc with rfl | hc
        · show k' < k
          omega
        · exact h1 _ (List.mem_map_of_mem hc)

theorem write_wf (m : Memory) (r t : Nat) (v : Byte) (h : m.wf = true) : (m.write r t v).wf = true :=
  putKey_wf m _ v h

theorem writeRow_wf (vs : List Byte) (m : Memory) (r off : Nat) (h : m.wf = true) :
    (m.writeRow r off vs).wf = true := by
  induction vs generalizing m off with
  | nil => exact h
  | cons v vs ih => exact ih _ _ (write_wf m r off v h)

theorem writeRows_wf (rows : List (List Byte)) (m : Memory) (r : Nat) (h : m.wf = true) :
    (m.writeRows r rows).wf = true := by
  induction rows generalizing m r with
  | nil => exact h
  | cons row rows ih => exact ih _ _ (writeRow_wf row m r 0 h)

/-! ### The address space -/

theorem inSpace_iff (m : Memory) (p : Params) :
    m.inSpace p = true ↔ ∀ c ∈ m, c.1 / 2 ^ 32 < 256 ∧ c.1 % 2 ^ 32 < p.lnMax.val := by
  simp [Memory.inSpace, List.all_eq_true]

theorem write_inSpace (m : Memory) (p : Params) (r t : Nat) (v : Byte) (hr : r < 256) (ht : t < p.lnMax.val)
    (h : m.inSpace p = true) : (m.write r t v).inSpace p = true := by
  rw [inSpace_iff] at h ⊢
  intro c hc
  rcases mem_putKey m _ v c hc with rfl | hc
  · have := p.lnMax.isLt
    simp only [memKey]
    omega
  · exact h c hc

theorem writeRow_inSpace (vs : List Byte) (m : Memory) (p : Params) (r off : Nat) (hr : r < 256)
    (ht : off + vs.length ≤ p.lnMax.val) (h : m.inSpace p = true) : (m.writeRow r off vs).inSpace p = true := by
  induction vs generalizing m off with
  | nil => exact h
  | cons v vs ih =>
    simp only [List.length_cons] at ht
    exact ih _ _ (by omega) (write_inSpace m p r off v hr (by omega) h)

theorem writeRows_inSpace (rows : List (List Byte)) (m : Memory) (p : Params) (r : Nat)
    (hr : r + rows.length ≤ 256) (ht : ∀ row ∈ rows, row.length ≤ p.lnMax.val) (h : m.inSpace p = true) :
    (m.writeRows r rows).inSpace p = true := by
  induction rows generalizing m r with
  | nil => exact h
  | cons row rows ih =>
    simp only [List.length_cons] at hr
    exact ih _ _ (by omega) (fun x hx => ht x (List.mem_cons_of_mem _ hx))
      (writeRow_inSpace row m p r 0 (by omega) (by simpa using ht row (List.mem_cons_self ..)) h)

/-! ### Columns -/

/-- A column is read exactly when each of its bytes is written. -/
theorem column_eq_ok (m : Memory) (n t : Nat) (vs : List Byte) :
    m.column n t = .ok vs ↔ vs.length = n ∧ ∀ j (h : j < vs.length), m.read j t = .written vs[j] := by
  rw [Memory.column, collect_eq_ok]
  constructor
  · intro h
    have hl : vs.length = n := by simpa using (congrArg List.length h).symm
    refine ⟨hl, fun j hj => ?_⟩
    have := List.getElem_of_eq h (i := j) (by simpa using hl ▸ hj)
    simp only [List.getElem_map, List.getElem_range] at this
    exact (get_eq_ok _ _).1 this
  · rintro ⟨hl, h⟩
    refine List.ext_getElem (by simp [hl]) (fun j h1 h2 => ?_)
    simp only [List.length_map] at h2
    simp only [List.getElem_map, List.getElem_range]
    rw [h j h2]
    rfl

/-- The columns are read exactly when each is. -/
theorem columns_eq_ok (m : Memory) (n len : Nat) (cols : List (List Byte)) :
    m.columns n len = .ok cols ↔ cols.length = len ∧ ∀ t (h : t < cols.length), m.column n t = .ok cols[t] := by
  rw [Memory.columns, collect_eq_ok]
  constructor
  · intro h
    have hl : cols.length = len := by simpa using (congrArg List.length h).symm
    refine ⟨hl, fun t ht => ?_⟩
    have := List.getElem_of_eq h (i := t) (by simpa using hl ▸ ht)
    simpa using this
  · rintro ⟨hl, h⟩
    refine List.ext_getElem (by simp [hl]) (fun t h1 h2 => ?_)
    simp only [List.length_map] at h2
    simpa using h t h2

end Sys2Proof.Laws
end

