-- ==== Sys2Proof/Laws/State.lean ====
section
/-! SUPPORT. What each named update of a context and of the machine does to each field: one lemma for each field and
update, so that no proof unfolds a record update. -/

namespace Sys2Proof.Laws

open Sys2Proof.Machine

/-! ### Updates of a context -/

@[simp] theorem setIN_IN (k : Context) (n : BitVec 9) : (k.setIN n).IN = .written n := rfl
@[simp] theorem setIN_ON (k : Context) (n : BitVec 9) : (k.setIN n).ON = k.ON := rfl
@[simp] theorem setIN_LN (k : Context) (n : BitVec 9) : (k.setIN n).LN = k.LN := rfl
@[simp] theorem setIN_XV (k : Context) (n : BitVec 9) : (k.setIN n).XV = k.XV := rfl
@[simp] theorem setIN_XP (k : Context) (n : BitVec 9) : (k.setIN n).XP = k.XP := rfl
@[simp] theorem setIN_ZP (k : Context) (n : BitVec 9) : (k.setIN n).ZP = k.ZP := rfl
@[simp] theorem setIN_IVM (k : Context) (n : BitVec 9) : (k.setIN n).IVM = k.IVM := rfl
@[simp] theorem setIN_OVM (k : Context) (n : BitVec 9) : (k.setIN n).OVM = k.OVM := rfl
@[simp] theorem setIN_ICR (k : Context) (n : BitVec 9) : (k.setIN n).ICR = k.ICR := rfl
@[simp] theorem setIN_OCR (k : Context) (n : BitVec 9) : (k.setIN n).OCR = k.OCR := rfl
@[simp] theorem setIN_trace (k : Context) (n : BitVec 9) : (k.setIN n).trace = k.trace := rfl
@[simp] theorem setIN_fault (k : Context) (n : BitVec 9) : (k.setIN n).fault = k.fault := rfl

@[simp] theorem setON_IN (k : Context) (n : BitVec 9) : (k.setON n).IN = k.IN := rfl
@[simp] theorem setON_ON (k : Context) (n : BitVec 9) : (k.setON n).ON = .written n := rfl
@[simp] theorem setON_LN (k : Context) (n : BitVec 9) : (k.setON n).LN = k.LN := rfl
@[simp] theorem setON_XV (k : Context) (n : BitVec 9) : (k.setON n).XV = k.XV := rfl
@[simp] theorem setON_XP (k : Context) (n : BitVec 9) : (k.setON n).XP = k.XP := rfl
@[simp] theorem setON_ZP (k : Context) (n : BitVec 9) : (k.setON n).ZP = k.ZP := rfl
@[simp] theorem setON_IVM (k : Context) (n : BitVec 9) : (k.setON n).IVM = k.IVM := rfl
@[simp] theorem setON_OVM (k : Context) (n : BitVec 9) : (k.setON n).OVM = k.OVM := rfl
@[simp] theorem setON_ICR (k : Context) (n : BitVec 9) : (k.setON n).ICR = k.ICR := rfl
@[simp] theorem setON_OCR (k : Context) (n : BitVec 9) : (k.setON n).OCR = k.OCR := rfl
@[simp] theorem setON_trace (k : Context) (n : BitVec 9) : (k.setON n).trace = k.trace := rfl
@[simp] theorem setON_fault (k : Context) (n : BitVec 9) : (k.setON n).fault = k.fault := rfl

@[simp] theorem setLN_IN (k : Context) (n : BitVec 32) : (k.setLN n).IN = k.IN := rfl
@[simp] theorem setLN_ON (k : Context) (n : BitVec 32) : (k.setLN n).ON = k.ON := rfl
@[simp] theorem setLN_LN (k : Context) (n : BitVec 32) : (k.setLN n).LN = .written n := rfl
@[simp] theorem setLN_XV (k : Context) (n : BitVec 32) : (k.setLN n).XV = k.XV := rfl
@[simp] theorem setLN_XP (k : Context) (n : BitVec 32) : (k.setLN n).XP = k.XP := rfl
@[simp] theorem setLN_ZP (k : Context) (n : BitVec 32) : (k.setLN n).ZP = k.ZP := rfl
@[simp] theorem setLN_IVM (k : Context) (n : BitVec 32) : (k.setLN n).IVM = k.IVM := rfl
@[simp] theorem setLN_OVM (k : Context) (n : BitVec 32) : (k.setLN n).OVM = k.OVM := rfl
@[simp] theorem setLN_ICR (k : Context) (n : BitVec 32) : (k.setLN n).ICR = k.ICR := rfl
@[simp] theorem setLN_OCR (k : Context) (n : BitVec 32) : (k.setLN n).OCR = k.OCR := rfl
@[simp] theorem setLN_trace (k : Context) (n : BitVec 32) : (k.setLN n).trace = k.trace := rfl
@[simp] theorem setLN_fault (k : Context) (n : BitVec 32) : (k.setLN n).fault = k.fault := rfl

@[simp] theorem setXP_IN (k : Context) (j : Fin 256) (x : Byte) : (k.setXP j x).IN = k.IN := rfl
@[simp] theorem setXP_ON (k : Context) (j : Fin 256) (x : Byte) : (k.setXP j x).ON = k.ON := rfl
@[simp] theorem setXP_LN (k : Context) (j : Fin 256) (x : Byte) : (k.setXP j x).LN = k.LN := rfl
@[simp] theorem setXP_XV (k : Context) (j : Fin 256) (x : Byte) : (k.setXP j x).XV = k.XV := rfl
@[simp] theorem setXP_XP (k : Context) (j : Fin 256) (x : Byte) : (k.setXP j x).XP = k.XP.write j x := rfl
@[simp] theorem setXP_ZP (k : Context) (j : Fin 256) (x : Byte) : (k.setXP j x).ZP = k.ZP := rfl
@[simp] theorem setXP_IVM (k : Context) (j : Fin 256) (x : Byte) : (k.setXP j x).IVM = k.IVM := rfl
@[simp] theorem setXP_OVM (k : Context) (j : Fin 256) (x : Byte) : (k.setXP j x).OVM = k.OVM := rfl
@[simp] theorem setXP_ICR (k : Context) (j : Fin 256) (x : Byte) : (k.setXP j x).ICR = k.ICR := rfl
@[simp] theorem setXP_OCR (k : Context) (j : Fin 256) (x : Byte) : (k.setXP j x).OCR = k.OCR := rfl
@[simp] theorem setXP_trace (k : Context) (j : Fin 256) (x : Byte) : (k.setXP j x).trace = k.trace := rfl
@[simp] theorem setXP_fault (k : Context) (j : Fin 256) (x : Byte) : (k.setXP j x).fault = k.fault := rfl

@[simp] theorem setZP_IN (k : Context) (i : Fin 256) (z : Byte) : (k.setZP i z).IN = k.IN := rfl
@[simp] theorem setZP_ON (k : Context) (i : Fin 256) (z : Byte) : (k.setZP i z).ON = k.ON := rfl
@[simp] theorem setZP_LN (k : Context) (i : Fin 256) (z : Byte) : (k.setZP i z).LN = k.LN := rfl
@[simp] theorem setZP_XV (k : Context) (i : Fin 256) (z : Byte) : (k.setZP i z).XV = k.XV := rfl
@[simp] theorem setZP_XP (k : Context) (i : Fin 256) (z : Byte) : (k.setZP i z).XP = k.XP := rfl
@[simp] theorem setZP_ZP (k : Context) (i : Fin 256) (z : Byte) : (k.setZP i z).ZP = k.ZP.write i z := rfl
@[simp] theorem setZP_IVM (k : Context) (i : Fin 256) (z : Byte) : (k.setZP i z).IVM = k.IVM := rfl
@[simp] theorem setZP_OVM (k : Context) (i : Fin 256) (z : Byte) : (k.setZP i z).OVM = k.OVM := rfl
@[simp] theorem setZP_ICR (k : Context) (i : Fin 256) (z : Byte) : (k.setZP i z).ICR = k.ICR := rfl
@[simp] theorem setZP_OCR (k : Context) (i : Fin 256) (z : Byte) : (k.setZP i z).OCR = k.OCR := rfl
@[simp] theorem setZP_trace (k : Context) (i : Fin 256) (z : Byte) : (k.setZP i z).trace = k.trace := rfl
@[simp] theorem setZP_fault (k : Context) (i : Fin 256) (z : Byte) : (k.setZP i z).fault = k.fault := rfl

@[simp] theorem setIVM_IN (k : Context) (j t : Nat) (v : Byte) : (k.setIVM j t v).IN = k.IN := rfl
@[simp] theorem setIVM_ON (k : Context) (j t : Nat) (v : Byte) : (k.setIVM j t v).ON = k.ON := rfl
@[simp] theorem setIVM_LN (k : Context) (j t : Nat) (v : Byte) : (k.setIVM j t v).LN = k.LN := rfl
@[simp] theorem setIVM_XV (k : Context) (j t : Nat) (v : Byte) : (k.setIVM j t v).XV = k.XV := rfl
@[simp] theorem setIVM_XP (k : Context) (j t : Nat) (v : Byte) : (k.setIVM j t v).XP = k.XP := rfl
@[simp] theorem setIVM_ZP (k : Context) (j t : Nat) (v : Byte) : (k.setIVM j t v).ZP = k.ZP := rfl
@[simp] theorem setIVM_IVM (k : Context) (j t : Nat) (v : Byte) : (k.setIVM j t v).IVM = k.IVM.write j t v := rfl
@[simp] theorem setIVM_OVM (k : Context) (j t : Nat) (v : Byte) : (k.setIVM j t v).OVM = k.OVM := rfl
@[simp] theorem setIVM_ICR (k : Context) (j t : Nat) (v : Byte) : (k.setIVM j t v).ICR = k.ICR := rfl
@[simp] theorem setIVM_OCR (k : Context) (j t : Nat) (v : Byte) : (k.setIVM j t v).OCR = k.OCR := rfl
@[simp] theorem setIVM_trace (k : Context) (j t : Nat) (v : Byte) : (k.setIVM j t v).trace = k.trace := rfl
@[simp] theorem setIVM_fault (k : Context) (j t : Nat) (v : Byte) : (k.setIVM j t v).fault = k.fault := rfl

@[simp] theorem setOVM_IN (k : Context) (rows : List (List Byte)) : (k.setOVM rows).IN = k.IN := rfl
@[simp] theorem setOVM_ON (k : Context) (rows : List (List Byte)) : (k.setOVM rows).ON = k.ON := rfl
@[simp] theorem setOVM_LN (k : Context) (rows : List (List Byte)) : (k.setOVM rows).LN = k.LN := rfl
@[simp] theorem setOVM_XV (k : Context) (rows : List (List Byte)) : (k.setOVM rows).XV = k.XV := rfl
@[simp] theorem setOVM_XP (k : Context) (rows : List (List Byte)) : (k.setOVM rows).XP = k.XP := rfl
@[simp] theorem setOVM_ZP (k : Context) (rows : List (List Byte)) : (k.setOVM rows).ZP = k.ZP := rfl
@[simp] theorem setOVM_IVM (k : Context) (rows : List (List Byte)) : (k.setOVM rows).IVM = k.IVM := rfl
@[simp] theorem setOVM_OVM (k : Context) (rows : List (List Byte)) : (k.setOVM rows).OVM = k.OVM.writeRows 0 rows := rfl
@[simp] theorem setOVM_ICR (k : Context) (rows : List (List Byte)) : (k.setOVM rows).ICR = k.ICR := rfl
@[simp] theorem setOVM_OCR (k : Context) (rows : List (List Byte)) : (k.setOVM rows).OCR = k.OCR := rfl
@[simp] theorem setOVM_trace (k : Context) (rows : List (List Byte)) : (k.setOVM rows).trace = k.trace := rfl
@[simp] theorem setOVM_fault (k : Context) (rows : List (List Byte)) : (k.setOVM rows).fault = k.fault := rfl

@[simp] theorem setCross_IN (k : Context) (ics ocs : List Byte) : (k.setCross ics ocs).IN = k.IN := rfl
@[simp] theorem setCross_ON (k : Context) (ics ocs : List Byte) : (k.setCross ics ocs).ON = k.ON := rfl
@[simp] theorem setCross_LN (k : Context) (ics ocs : List Byte) : (k.setCross ics ocs).LN = k.LN := rfl
@[simp] theorem setCross_XV (k : Context) (ics ocs : List Byte) : (k.setCross ics ocs).XV = k.XV := rfl
@[simp] theorem setCross_XP (k : Context) (ics ocs : List Byte) : (k.setCross ics ocs).XP = k.XP := rfl
@[simp] theorem setCross_ZP (k : Context) (ics ocs : List Byte) : (k.setCross ics ocs).ZP = k.ZP := rfl
@[simp] theorem setCross_IVM (k : Context) (ics ocs : List Byte) : (k.setCross ics ocs).IVM = k.IVM := rfl
@[simp] theorem setCross_OVM (k : Context) (ics ocs : List Byte) : (k.setCross ics ocs).OVM = k.OVM := rfl
@[simp] theorem setCross_ICR (k : Context) (ics ocs : List Byte) : (k.setCross ics ocs).ICR = RegFile.ofList ics := rfl
@[simp] theorem setCross_OCR (k : Context) (ics ocs : List Byte) : (k.setCross ics ocs).OCR = RegFile.ofList ocs := rfl
@[simp] theorem setCross_trace (k : Context) (ics ocs : List Byte) : (k.setCross ics ocs).trace = k.trace := rfl
@[simp] theorem setCross_fault (k : Context) (ics ocs : List Byte) : (k.setCross ics ocs).fault = k.fault := rfl

@[simp] theorem respond_IN (k : Context) (v : Byte) : (k.respond v).IN = k.IN := rfl
@[simp] theorem respond_ON (k : Context) (v : Byte) : (k.respond v).ON = k.ON := rfl
@[simp] theorem respond_LN (k : Context) (v : Byte) : (k.respond v).LN = k.LN := rfl
@[simp] theorem respond_XV (k : Context) (v : Byte) : (k.respond v).XV = k.XV := rfl
@[simp] theorem respond_XP (k : Context) (v : Byte) : (k.respond v).XP = k.XP := rfl
@[simp] theorem respond_ZP (k : Context) (v : Byte) : (k.respond v).ZP = k.ZP := rfl
@[simp] theorem respond_IVM (k : Context) (v : Byte) : (k.respond v).IVM = k.IVM := rfl
@[simp] theorem respond_OVM (k : Context) (v : Byte) : (k.respond v).OVM = k.OVM := rfl
@[simp] theorem respond_ICR (k : Context) (v : Byte) : (k.respond v).ICR = k.ICR := rfl
@[simp] theorem respond_OCR (k : Context) (v : Byte) : (k.respond v).OCR = k.OCR := rfl
@[simp] theorem respond_trace (k : Context) (v : Byte) : (k.respond v).trace = k.trace ++ [v] := rfl
@[simp] theorem respond_fault (k : Context) (v : Byte) : (k.respond v).fault = k.fault := rfl

@[simp] theorem setXV_IN (k : Context) : (k.setXV).IN = k.IN := rfl
@[simp] theorem setXV_ON (k : Context) : (k.setXV).ON = k.ON := rfl
@[simp] theorem setXV_LN (k : Context) : (k.setXV).LN = k.LN := rfl
@[simp] theorem setXV_XV (k : Context) : (k.setXV).XV = true := rfl
@[simp] theorem setXV_XP (k : Context) : (k.setXV).XP = k.XP := rfl
@[simp] theorem setXV_ZP (k : Context) : (k.setXV).ZP = k.ZP := rfl
@[simp] theorem setXV_IVM (k : Context) : (k.setXV).IVM = k.IVM := rfl
@[simp] theorem setXV_OVM (k : Context) : (k.setXV).OVM = k.OVM := rfl
@[simp] theorem setXV_ICR (k : Context) : (k.setXV).ICR = k.ICR := rfl
@[simp] theorem setXV_OCR (k : Context) : (k.setXV).OCR = k.OCR := rfl
@[simp] theorem setXV_trace (k : Context) : (k.setXV).trace = k.trace := rfl
@[simp] theorem setXV_fault (k : Context) : (k.setXV).fault = k.fault := rfl

@[simp] theorem clearXV_IN (k : Context) : (k.clearXV).IN = k.IN := rfl
@[simp] theorem clearXV_ON (k : Context) : (k.clearXV).ON = k.ON := rfl
@[simp] theorem clearXV_LN (k : Context) : (k.clearXV).LN = k.LN := rfl
@[simp] theorem clearXV_XV (k : Context) : (k.clearXV).XV = false := rfl
@[simp] theorem clearXV_XP (k : Context) : (k.clearXV).XP = k.XP := rfl
@[simp] theorem clearXV_ZP (k : Context) : (k.clearXV).ZP = k.ZP := rfl
@[simp] theorem clearXV_IVM (k : Context) : (k.clearXV).IVM = k.IVM := rfl
@[simp] theorem clearXV_OVM (k : Context) : (k.clearXV).OVM = k.OVM := rfl
@[simp] theorem clearXV_ICR (k : Context) : (k.clearXV).ICR = k.ICR := rfl
@[simp] theorem clearXV_OCR (k : Context) : (k.clearXV).OCR = k.OCR := rfl
@[simp] theorem clearXV_trace (k : Context) : (k.clearXV).trace = k.trace := rfl
@[simp] theorem clearXV_fault (k : Context) : (k.clearXV).fault = k.fault := rfl

@[simp] theorem recordFault_IN (k : Context) (r : Fault) : (k.recordFault r).IN = k.IN := rfl
@[simp] theorem recordFault_ON (k : Context) (r : Fault) : (k.recordFault r).ON = k.ON := rfl
@[simp] theorem recordFault_LN (k : Context) (r : Fault) : (k.recordFault r).LN = k.LN := rfl
@[simp] theorem recordFault_XV (k : Context) (r : Fault) : (k.recordFault r).XV = k.XV := rfl
@[simp] theorem recordFault_XP (k : Context) (r : Fault) : (k.recordFault r).XP = k.XP := rfl
@[simp] theorem recordFault_ZP (k : Context) (r : Fault) : (k.recordFault r).ZP = k.ZP := rfl
@[simp] theorem recordFault_IVM (k : Context) (r : Fault) : (k.recordFault r).IVM = k.IVM := rfl
@[simp] theorem recordFault_OVM (k : Context) (r : Fault) : (k.recordFault r).OVM = k.OVM := rfl
@[simp] theorem recordFault_ICR (k : Context) (r : Fault) : (k.recordFault r).ICR = k.ICR := rfl
@[simp] theorem recordFault_OCR (k : Context) (r : Fault) : (k.recordFault r).OCR = k.OCR := rfl
@[simp] theorem recordFault_trace (k : Context) (r : Fault) : (k.recordFault r).trace = k.trace := rfl
@[simp] theorem recordFault_fault (k : Context) (r : Fault) : (k.recordFault r).fault = some r := rfl

/-! ### Updates of the machine -/

@[simp] theorem state_withCtx_params (s : State) (k : Context) : (s.withCtx k).params = s.params := rfl
@[simp] theorem state_withCtx_MULT (s : State) (k : Context) : (s.withCtx k).MULT = s.MULT := rfl
@[simp] theorem state_withCtx_INVT (s : State) (k : Context) : (s.withCtx k).INVT = s.INVT := rfl
@[simp] theorem state_withCtx_TRDY (s : State) (k : Context) : (s.withCtx k).TRDY = s.TRDY := rfl
@[simp] theorem state_withCtx_before (s : State) (k : Context) : (s.withCtx k).before = s.before := rfl
@[simp] theorem state_withCtx_ctx (s : State) (k : Context) : (s.withCtx k).ctx = k := rfl
@[simp] theorem state_withCtx_after (s : State) (k : Context) : (s.withCtx k).after = s.after := rfl
@[simp] theorem state_withCtx_issue (s : State) (k : Context) : (s.withCtx k).issue = s.issue := rfl

@[simp] theorem state_withTables_params (s : State) (M : MulTable) (V : InvTable) : (s.withTables M V).params = s.params := rfl
@[simp] theorem state_withTables_MULT (s : State) (M : MulTable) (V : InvTable) : (s.withTables M V).MULT = .written M := rfl
@[simp] theorem state_withTables_INVT (s : State) (M : MulTable) (V : InvTable) : (s.withTables M V).INVT = .written V := rfl
@[simp] theorem state_withTables_TRDY (s : State) (M : MulTable) (V : InvTable) : (s.withTables M V).TRDY = true := rfl
@[simp] theorem state_withTables_before (s : State) (M : MulTable) (V : InvTable) : (s.withTables M V).before = s.before := rfl
@[simp] theorem state_withTables_ctx (s : State) (M : MulTable) (V : InvTable) : (s.withTables M V).ctx = s.ctx := rfl
@[simp] theorem state_withTables_after (s : State) (M : MulTable) (V : InvTable) : (s.withTables M V).after = s.after := rfl
@[simp] theorem state_withTables_issue (s : State) (M : MulTable) (V : InvTable) : (s.withTables M V).issue = s.issue := rfl

@[simp] theorem state_respond_params (s : State) (v : Byte) : (s.respond v).params = s.params := rfl
@[simp] theorem state_respond_MULT (s : State) (v : Byte) : (s.respond v).MULT = s.MULT := rfl
@[simp] theorem state_respond_INVT (s : State) (v : Byte) : (s.respond v).INVT = s.INVT := rfl
@[simp] theorem state_respond_TRDY (s : State) (v : Byte) : (s.respond v).TRDY = s.TRDY := rfl
@[simp] theorem state_respond_before (s : State) (v : Byte) : (s.respond v).before = s.before := rfl
@[simp] theorem state_respond_ctx (s : State) (v : Byte) : (s.respond v).ctx = s.ctx.respond v := rfl
@[simp] theorem state_respond_after (s : State) (v : Byte) : (s.respond v).after = s.after := rfl
@[simp] theorem state_respond_issue (s : State) (v : Byte) : (s.respond v).issue = s.issue := rfl

@[simp] theorem state_presentFirst_params (s : State) (w : Word) : (s.presentFirst w).params = s.params := rfl
@[simp] theorem state_presentFirst_MULT (s : State) (w : Word) : (s.presentFirst w).MULT = s.MULT := rfl
@[simp] theorem state_presentFirst_INVT (s : State) (w : Word) : (s.presentFirst w).INVT = s.INVT := rfl
@[simp] theorem state_presentFirst_TRDY (s : State) (w : Word) : (s.presentFirst w).TRDY = s.TRDY := rfl
@[simp] theorem state_presentFirst_before (s : State) (w : Word) : (s.presentFirst w).before = s.before := rfl
@[simp] theorem state_presentFirst_ctx (s : State) (w : Word) : (s.presentFirst w).ctx = s.ctx := rfl
@[simp] theorem state_presentFirst_after (s : State) (w : Word) : (s.presentFirst w).after = s.after := rfl
@[simp] theorem state_presentFirst_issue (s : State) (w : Word) : (s.presentFirst w).issue = (s.before.length, w) :: s.issue := rfl

@[simp] theorem state_issueProgram_params (s : State) (p : Nat) (ws : List Word) : (s.issueProgram p ws).params = s.params := rfl
@[simp] theorem state_issueProgram_MULT (s : State) (p : Nat) (ws : List Word) : (s.issueProgram p ws).MULT = s.MULT := rfl
@[simp] theorem state_issueProgram_INVT (s : State) (p : Nat) (ws : List Word) : (s.issueProgram p ws).INVT = s.INVT := rfl
@[simp] theorem state_issueProgram_TRDY (s : State) (p : Nat) (ws : List Word) : (s.issueProgram p ws).TRDY = s.TRDY := rfl
@[simp] theorem state_issueProgram_before (s : State) (p : Nat) (ws : List Word) : (s.issueProgram p ws).before = s.before := rfl
@[simp] theorem state_issueProgram_ctx (s : State) (p : Nat) (ws : List Word) : (s.issueProgram p ws).ctx = s.ctx := rfl
@[simp] theorem state_issueProgram_after (s : State) (p : Nat) (ws : List Word) : (s.issueProgram p ws).after = s.after := rfl
@[simp] theorem state_issueProgram_issue (s : State) (p : Nat) (ws : List Word) : (s.issueProgram p ws).issue = s.issue ++ ws.map fun w => (p, w) := rfl

end Sys2Proof.Laws
end

