-- ==== Sys2Proof/Laws/Stages.lean ====
section
/-! SUPPORT. What the shared operations of a command and of a step can do, said once: the outcome of a command, the two
flags, the operand forms, the ports, and the two stages. -/

namespace Sys2Proof.Laws

open Sys2Proof.Machine

/-! ### The outcome of a command -/

@[simp] theorem finish_ok (s : State) : finish (.ok s) = .next s := rfl

@[simp] theorem finish_error (r : Fault) : finish (.error r) = .fault r := rfl

theorem finish_eq_next (e : Except Fault State) (t : State) : finish e = .next t ↔ e = .ok t := by
  cases e <;> simp [finish]

theorem finish_eq_fault (e : Except Fault State) (r : Fault) : finish e = .fault r ↔ e = .error r := by
  cases e <;> simp [finish]

theorem finish_ne_refused (e : Except Fault State) (r : Refusal) : finish e ≠ .refused r := by
  cases e <;> simp [finish]

/-- A first step that must succeed, taken apart. -/
theorem bind_eq_ok {α β : Type} (e : Except Fault α) (f : α → Except Fault β) (b : β) :
    (e >>= f) = .ok b ↔ ∃ a, e = .ok a ∧ f a = .ok b := by
  cases e with
  | error r => simp [bind, Except.bind]
  | ok a => simp [bind, Except.bind]

theorem bind_eq_error {α β : Type} (e : Except Fault α) (f : α → Except Fault β) (r : Fault) :
    (e >>= f) = .error r ↔ e = .error r ∨ ∃ a, e = .ok a ∧ f a = .error r := by
  cases e with
  | error r' => simp [bind, Except.bind]
  | ok a => simp [bind, Except.bind]

@[simp] theorem ok_bind {α β : Type} (a : α) (f : α → Except Fault β) : (Except.ok a >>= f) = f a := rfl

@[simp] theorem error_bind {α β : Type} (r : Fault) (f : α → Except Fault β) :
    ((Except.error r : Except Fault α) >>= f) = .error r := rfl

theorem require_eq_ok (c : Bool) (r : Fault) (u : Unit) : require c r = .ok u ↔ c = true := by
  cases c <;> simp [require]

theorem require_eq_error (c : Bool) (r r' : Fault) : require c r = .error r' ↔ c = false ∧ r' = r := by
  cases c <;> simp [require, eq_comm]

/-! ### Flags -/

theorem requireTables_eq_ok (s : State) (u : Unit) : s.requireTables = .ok u ↔ s.TRDY = true := by
  rw [State.requireTables, require_eq_ok]

theorem requireTables_eq_error (s : State) (r : Fault) :
    s.requireTables = .error r ↔ s.TRDY = false ∧ r = .tablesNotReady := by
  rw [State.requireTables, require_eq_error]

theorem requireCross_eq_ok (k : Context) (u : Unit) : k.requireCross = .ok u ↔ k.XV = true := by
  rw [Context.requireCross, require_eq_ok]

theorem requireCross_eq_error (k : Context) (r : Fault) :
    k.requireCross = .error r ↔ k.XV = false ∧ r = .staleCross := by
  rw [Context.requireCross, require_eq_error]

/-! ### Operand forms -/

theorem countOperand_eq_ok (n : Nat) (v : BitVec 9) : countOperand n = .ok v ↔ n ≤ 256 ∧ v = BitVec.ofNat 9 n := by
  unfold countOperand
  split <;> simp [eq_comm] <;> omega

theorem countOperand_eq_error (n : Nat) (r : Fault) : countOperand n = .error r ↔ n > 256 ∧ r = .countRange := by
  unfold countOperand
  split <;> simp [eq_comm] <;> omega

theorem lengthOperand_eq_ok (p : Params) (n : Nat) (v : BitVec 32) :
    lengthOperand p n = .ok v ↔ n ≤ p.lnMax.val ∧ v = BitVec.ofNat 32 n := by
  unfold lengthOperand
  split <;> simp [eq_comm] <;> omega

theorem lengthOperand_eq_error (p : Params) (n : Nat) (r : Fault) :
    lengthOperand p n = .error r ↔ n > p.lnMax.val ∧ r = .lenRange := by
  unfold lengthOperand
  split <;> simp [eq_comm] <;> omega

theorem offsetOperand_eq_ok (p : Params) (t u : Nat) : offsetOperand p t = .ok u ↔ t < p.lnMax.val ∧ u = t := by
  unfold offsetOperand
  split <;> simp [eq_comm] <;> omega

theorem offsetOperand_eq_error (p : Params) (t : Nat) (r : Fault) :
    offsetOperand p t = .error r ↔ p.lnMax.val ≤ t ∧ r = .lenRange := by
  unfold offsetOperand
  split <;> simp [eq_comm] <;> omega

/-! ### Ports -/

/-- Serving a port keeps every context and changes nothing else. -/
theorem select_eq_some (s s' : State) (port : Nat) :
    s.select port = some s' ↔
      s'.before = s.contexts.take port ∧ s'.ctx :: s'.after = s.contexts.drop port ∧ s'.params = s.params ∧
        s'.MULT = s.MULT ∧ s'.INVT = s.INVT ∧ s'.TRDY = s.TRDY ∧ s'.issue = s.issue := by
  unfold State.select
  constructor
  · intro h
    split at h
    · cases h
    · rename_i k rest hd
      simp only [Option.some.injEq] at h
      subst h
      exact ⟨rfl, hd.symm, rfl, rfl, rfl, rfl, rfl⟩
  · rintro ⟨h1, h2, h3, h4, h5, h6, h7⟩
    rw [← h2]
    obtain ⟨p', M', V', T', b', c', a', i'⟩ := s'
    simp_all

theorem select_contexts (s s' : State) (port : Nat) (h : s.select port = some s') : s'.contexts = s.contexts := by
  obtain ⟨h1, h2, -⟩ := (select_eq_some s s' port).1 h
  rw [State.contexts, h1, h2, List.take_append_drop]

theorem select_isSome (s : State) (port : Nat) (h : port < s.contexts.length) : ∃ s', s.select port = some s' := by
  unfold State.select
  split
  · rename_i hd
    rw [List.drop_eq_nil_iff] at hd
    omega
  · exact ⟨_, rfl⟩

/-- The served context and its place among all of them. -/
theorem select_ctx (s s' : State) (port : Nat) (h : s.select port = some s') :
    port < s.contexts.length ∧ s'.before.length = port ∧ s.contexts[port]? = some s'.ctx := by
  obtain ⟨h1, h2, -⟩ := (select_eq_some s s' port).1 h
  have hl : port < s.contexts.length := by
    by_contra hge
    rw [List.drop_eq_nil_of_le (by omega)] at h2
    cases h2
  refine ⟨hl, by rw [h1, List.length_take]; omega, ?_⟩
  have := congrArg (·[0]?) h2
  simpa using this.symm

/-- The context at a port goes on, or has stopped. -/
theorem isFaulted_eq (s : State) (port : Nat) (k : Context) (h : s.contexts[port]? = some k) :
    s.isFaulted port = k.fault.isSome := by
  rw [State.isFaulted, h]

theorem takeIssued_eq_none (stopped : Nat → Bool) (q : List (Nat × Word)) :
    takeIssued stopped q = none ↔ ∀ c ∈ q, stopped c.1 = true := by
  induction q with
  | nil => simp [takeIssued]
  | cons c q ih =>
    cases hc : stopped c.1 with
    | false => simp [takeIssued, hc]
    | true =>
      cases hq : takeIssued stopped q with
      | none => simpa [takeIssued, hc, hq] using ih.1 hq
      | some d =>
        have hn : ¬∀ e ∈ q, stopped e.1 = true := fun h => by rw [ih.2 h] at hq; cases hq
        simpa [takeIssued, hc, hq] using hn

/-- The word taken is the first for a port that goes on, and every other word stays in its place. -/
theorem takeIssued_eq_some (stopped : Nat → Bool) (q rest : List (Nat × Word)) (c : Nat × Word) :
    takeIssued stopped q = some (c, rest) ↔
      ∃ pre post, q = pre ++ c :: post ∧ rest = pre ++ post ∧ (∀ d ∈ pre, stopped d.1 = true) ∧ stopped c.1 = false := by
  induction q generalizing rest with
  | nil => simp [takeIssued]
  | cons d q ih =>
    cases hd : stopped d.1 with
    | false =>
      constructor
      · intro h
        simp only [takeIssued, hd, Bool.false_eq_true, if_false, Option.some.injEq, Prod.mk.injEq] at h
        obtain ⟨rfl, rfl⟩ := h
        exact ⟨[], q, rfl, rfl, by simp, hd⟩
      · rintro ⟨pre, post, h1, rfl, h2, h3⟩
        cases pre with
        | nil =>
          obtain ⟨rfl, rfl⟩ := List.cons.inj h1
          simp [takeIssued, hd]
        | cons e pre =>
          obtain ⟨rfl, -⟩ := List.cons.inj h1
          rw [h2 d (List.mem_cons_self ..)] at hd
          cases hd
    | true =>
      constructor
      · intro h
        cases hq : takeIssued stopped q with
        | none => simp [takeIssued, hd, hq] at h
        | some e =>
          obtain ⟨e, rest'⟩ := e
          simp only [takeIssued, hd, hq, if_true, Option.some.injEq, Prod.mk.injEq] at h
          obtain ⟨rfl, rfl⟩ := h
          obtain ⟨pre, post, rfl, rfl, h2, h3⟩ := (ih rest').1 hq
          exact ⟨d :: pre, post, rfl, rfl, by simpa [hd] using h2, h3⟩
      · rintro ⟨pre, post, h1, rfl, h2, h3⟩
        cases pre with
        | nil =>
          obtain ⟨rfl, -⟩ := List.cons.inj h1
          rw [h3] at hd
          cases hd
        | cons e pre =>
          obtain ⟨rfl, rfl⟩ := List.cons.inj h1
          have : takeIssued stopped (pre ++ c :: post) = some (c, pre ++ post) :=
            (ih (pre ++ post)).2 ⟨pre, post, rfl, rfl, fun x hx => h2 x (List.mem_cons_of_mem _ hx), h3⟩
          simp [takeIssued, hd, this]

/-- What a host can present. -/
theorem present_cases (s : State) :
    ((∀ c ∈ s.issue, s.isFaulted c.1 = true) ∧ s.present = .nothing) ∨
    (∃ pre port w post, s.issue = pre ++ (port, w) :: post ∧ (∀ c ∈ pre, s.isFaulted c.1 = true) ∧
      s.isFaulted port = false ∧
      ((({ s with issue := pre ++ post } : State).select port = none ∧ s.present = .noPort) ∨
       ∃ s', ({ s with issue := pre ++ post } : State).select port = some s' ∧ s.present = .command w s')) := by
  unfold State.present
  cases hq : takeIssued s.isFaulted s.issue with
  | none => exact .inl ⟨(takeIssued_eq_none _ _).1 hq, rfl⟩
  | some c =>
    obtain ⟨⟨port, w⟩, rest⟩ := c
    obtain ⟨pre, post, h1, rfl, h2, h3⟩ := (takeIssued_eq_some _ _ _ _).1 hq
    refine .inr ⟨pre, port, w, post, h1, h2, h3, ?_⟩
    simp only
    cases hs : ({ s with issue := pre ++ post } : State).select port with
    | none => exact .inl ⟨rfl, rfl⟩
    | some s' => exact .inr ⟨s', rfl, rfl⟩

/-! ### Going on and stopping -/

/-- The machine goes on unchanged, or stops because every context's run has stopped. -/
theorem proceed_cases (s : State) :
    (s.proceed = .next s ∧ ∃ k ∈ s.contexts, k.fault = none) ∨
    (∃ r, s.ctx.fault = some r ∧ (∀ k ∈ s.contexts, k.fault ≠ none) ∧ s.proceed = .fault r) := by
  unfold State.proceed
  cases hf : s.ctx.fault with
  | none => exact .inl ⟨rfl, s.ctx, by simp [State.contexts], hf⟩
  | some r =>
    cases ha : s.contexts.all (·.fault.isSome) with
    | true =>
      refine .inr ⟨r, rfl, fun k hk hn => ?_, rfl⟩
      have := List.all_eq_true.1 ha k hk
      rw [hn] at this
      cases this
    | false =>
      obtain ⟨k, hk, hn⟩ := List.all_eq_false.1 ha
      exact .inl ⟨rfl, k, hk, by simpa using hn⟩

theorem proceed_eq_next (s t : State) (h : s.proceed = .next t) : t = s := by
  rcases proceed_cases s with ⟨h1, -⟩ | ⟨r, -, -, h1⟩
  · rw [h1] at h
    exact (Host.Outcome.next.inj h).symm
  · rw [h1] at h
    cases h

/-- An undefined command leaves its context as it was but for the record, and every other context as it was. -/
theorem stopContext_eq_next (s t : State) (r : Fault) (h : s.stopContext r = .next t) :
    t = s.withCtx (s.ctx.recordFault r) := proceed_eq_next _ _ h

/-- A step that answers a next state is idle, or performs the command presented, or stops the context whose command is
undefined. -/
theorem step_eq_next (s t : State) (h : step s = .next t) :
    ((∀ c ∈ s.issue, s.isFaulted c.1 = true) ∧ t = s) ∨
    ∃ pre port w post s', s.issue = pre ++ (port, w) :: post ∧ (∀ c ∈ pre, s.isFaulted c.1 = true) ∧
      s.isFaulted port = false ∧ ({ s with issue := pre ++ post } : State).select port = some s' ∧
      ((∃ i, decode w = .ok i ∧ exec i s' = .next t) ∨
        ∃ r, t = s'.withCtx (s'.ctx.recordFault r) ∧
          ((∃ e, decode w = .error e ∧ r = .illegalCmd) ∨ ∃ i, decode w = .ok i ∧ exec i s' = .fault r)) := by
  unfold step at h
  rcases present_cases s with ⟨hq, hp⟩ | ⟨pre, port, w, post, hq, hpre, hport, ⟨hs, hp⟩ | ⟨s', hs, hp⟩⟩
  · rw [hp] at h
    exact .inl ⟨hq, proceed_eq_next _ _ h⟩
  · rw [hp] at h
    cases h
  · rw [hp] at h
    refine .inr ⟨pre, port, w, post, s', hq, hpre, hport, hs, ?_⟩
    cases hd : decode w with
    | error e =>
      simp only [hd] at h
      exact .inr ⟨_, stopContext_eq_next _ _ _ h, .inl ⟨e, rfl, rfl⟩⟩
    | ok i =>
      simp only [hd] at h
      cases he : exec i s' with
      | next u => rw [he] at h; exact .inl ⟨i, rfl, he.trans h⟩
      | fault r => rw [he] at h; exact .inr ⟨r, stopContext_eq_next _ _ _ h, .inr ⟨i, rfl, he⟩⟩
      | refused r => rw [he] at h; cases h

/-! ### The two stages -/

/-- The Cross-Product Stage completes exactly under the conditions of 41_cross_product.md R123, and then writes the two
vectors and sets `XV`. -/
theorem crossProductStage_eq_ok (s t : State) :
    crossProductStage s = .ok t ↔
      ∃ n m xs zs mul, s.TRDY = true ∧ s.ctx.IN = .written n ∧ s.ctx.ON = .written m ∧ n ≠ 0 ∧
        s.ctx.XP.first n.toNat = .ok xs ∧ s.ctx.ZP.first m.toNat = .ok zs ∧ xs.Nodup ∧ s.mulOf = .ok mul ∧
        t = s.withCtx (s.ctx.setCross (inCross mul xs) (outCross mul xs zs)).setXV := by
  simp only [crossProductStage, bind_eq_ok, requireTables_eq_ok, get_eq_ok, require_eq_ok, decide_eq_true_eq]
  constructor
  · rintro ⟨-, ht, n, hn, m, hm, -, h0, xs, hxs, zs, hzs, -, hd, mul, hmul, h⟩
    exact ⟨n, m, xs, zs, mul, ht, hn, hm, h0, hxs, hzs, hd, hmul, (Except.ok.inj h).symm⟩
  · rintro ⟨n, m, xs, zs, mul, ht, hn, hm, h0, hxs, hzs, hd, hmul, rfl⟩
    exact ⟨(), ht, n, hn, m, hm, (), h0, xs, hxs, zs, hzs, (), hd, mul, hmul, rfl⟩

/-- The Interpolation Engine completes exactly under the conditions of 42_interpolation.md R147, and then writes the
output rows. -/
theorem interpolationStage_eq_ok (s t : State) :
    interpolationStage s = .ok t ↔
      ∃ n m len columns xs zs ics ocs A rows, s.TRDY = true ∧ s.ctx.XV = true ∧ s.ctx.IN = .written n ∧
        s.ctx.ON = .written m ∧ s.ctx.LN = .written len ∧ s.ctx.IVM.columns n.toNat len.toNat = .ok columns ∧
        s.ctx.XP.first n.toNat = .ok xs ∧ s.ctx.ZP.first m.toNat = .ok zs ∧ s.ctx.ICR.first n.toNat = .ok ics ∧
        s.ctx.OCR.first m.toNat = .ok ocs ∧ s.arith = .ok A ∧ outputRows A xs ics zs ocs columns = .ok rows ∧
        t = s.withCtx (s.ctx.setOVM rows) := by
  simp only [interpolationStage, bind_eq_ok, requireTables_eq_ok, requireCross_eq_ok, get_eq_ok]
  constructor
  · rintro ⟨-, ht, -, hv, n, hn, m, hm, len, hl, columns, hc, xs, hxs, zs, hzs, ics, hics, ocs, hocs, A, hA, rows, hr, h⟩
    exact ⟨n, m, len, columns, xs, zs, ics, ocs, A, rows, ht, hv, hn, hm, hl, hc, hxs, hzs, hics, hocs, hA, hr,
      (Except.ok.inj h).symm⟩
  · rintro ⟨n, m, len, columns, xs, zs, ics, ocs, A, rows, ht, hv, hn, hm, hl, hc, hxs, hzs, hics, hocs, hA, hr, rfl⟩
    exact ⟨(), ht, (), hv, n, hn, m, hm, len, hl, columns, hc, xs, hxs, zs, hzs, ics, hics, ocs, hocs, A, hA, rows, hr,
      rfl⟩

/-- The output rows: one for each output point, one byte for each column. -/
theorem outputRows_eq_ok (A : Arith) (xs ics zs ocs : List Byte) (columns rows : List (List Byte)) :
    outputRows A xs ics zs ocs columns = .ok rows ↔
      rows.length = min zs.length ocs.length ∧
        ∀ i (h : i < rows.length) (hz : i < zs.length) (ho : i < ocs.length),
          collect (columns.map (outputByte A xs ics zs[i] ocs[i])) = .ok rows[i] := by
  rw [outputRows, collect_eq_ok]
  constructor
  · intro h
    have hl : rows.length = min zs.length ocs.length := by simpa using (congrArg List.length h).symm
    refine ⟨hl, fun i hi hz ho => ?_⟩
    have := List.getElem_of_eq h (i := i) (by simp; omega)
    simpa using this
  · rintro ⟨hl, h⟩
    refine List.ext_getElem (by simp [hl]) (fun i h1 h2 => ?_)
    simp only [List.length_map, List.length_zip] at h1 h2
    simpa using h i (by omega) (by omega) (by omega)

/-! ### The coincident input point -/

theorem foldl_coincident (l : List (Byte × Nat)) (z : Byte) (c₀ : Option Nat) :
    (l.foldl (fun c p => if gfAdd z p.1 = 0 then some p.2 else c) c₀ = c₀ ∧ ∀ p ∈ l, p.1 ≠ z) ∨
    ∃ p ∈ l, p.1 = z ∧ l.foldl (fun c p => if gfAdd z p.1 = 0 then some p.2 else c) c₀ = some p.2 := by
  induction l generalizing c₀ with
  | nil => exact .inl ⟨rfl, by simp⟩
  | cons p l ih =>
    have hz : gfAdd z p.1 = 0 ↔ p.1 = z := by
      constructor
      · intro h; exact (BitVec.xor_eq_zero_iff.1 h).symm
      · intro h; rw [h]; exact BitVec.xor_self
    rw [List.foldl_cons]
    by_cases hp : p.1 = z
    · have hstep : (if gfAdd z p.1 = 0 then some p.2 else c₀) = some p.2 := if_pos (hz.2 hp)
      rcases ih (some p.2) with ⟨h1, -⟩ | ⟨q, hq, hqz, h1⟩
      · exact .inr ⟨p, List.mem_cons_self .., hp, by rw [hstep]; exact h1⟩
      · exact .inr ⟨q, List.mem_cons_of_mem _ hq, hqz, by rw [hstep]; exact h1⟩
    · have hstep : (if gfAdd z p.1 = 0 then some p.2 else c₀) = c₀ := if_neg fun h => hp (hz.1 h)
      rcases ih c₀ with ⟨h1, h2⟩ | ⟨q, hq, hqz, h1⟩
      · refine .inl ⟨by rw [hstep]; exact h1, fun q hq => ?_⟩
        rcases List.mem_cons.1 hq with rfl | hq
        · exact hp
        · exact h2 q hq
      · exact .inr ⟨q, List.mem_cons_of_mem _ hq, hqz, by rw [hstep]; exact h1⟩

/-- The coincident input point (42_interpolation.md R140): none, and `z` is no input point, or the index of one that
equals `z`. -/
theorem coincident_cases (xs : List Byte) (z : Byte) :
    (coincident xs z = none ∧ z ∉ xs) ∨ ∃ c, ∃ h : c < xs.length, coincident xs z = some c ∧ xs[c] = z := by
  rcases foldl_coincident xs.zipIdx z none with ⟨h1, h2⟩ | ⟨⟨x, c⟩, hp, hpz, h1⟩
  · refine .inl ⟨h1, fun hz => ?_⟩
    obtain ⟨j, hj, rfl⟩ := List.mem_iff_getElem.1 hz
    refine h2 (xs[j], j) ?_ rfl
    rw [List.mem_zipIdx_iff_getElem?]
    exact List.getElem?_eq_getElem hj
  · rw [List.mem_zipIdx_iff_getElem?] at hp
    obtain ⟨hc, hx⟩ := List.getElem?_eq_some_iff.1 hp
    exact .inr ⟨c, hc, h1, hx.trans hpz⟩

end Sys2Proof.Laws
end

