-- ==== Sys2Proof/Laws/Commands.lean ====
section
/-! SUPPORT. What a command can do, said once, and that the memories after reset are in the canonical form. -/

namespace Sys2Proof.Laws

open Sys2Proof.Machine

/-- Everything a command can do when it answers a next state: TINIT builds the tables once; a responding command adds
one byte to the response trace; a command of the host writes one register, one entry or one byte; the other three run the
two stages. -/
theorem exec_eq_next (i : Instr) (s t : State) (h : exec i s = .next t) :
    (i = .tinit ∧ ((s.TRDY = true ∧ t = s) ∨ (s.TRDY = false ∧ t = s.withTables multTable invTable))) ∨
    (i.responds = true ∧ ∃ v, t = s.respond v) ∨
    (∃ n, i = .setin n ∧ n ≤ 256 ∧ t = s.withCtx (s.ctx.setIN (BitVec.ofNat 9 n)).clearXV) ∨
    (∃ n, i = .seton n ∧ n ≤ 256 ∧ t = s.withCtx (s.ctx.setON (BitVec.ofNat 9 n)).clearXV) ∨
    (∃ n, i = .setln n ∧ n ≤ s.params.lnMax.val ∧ t = s.withCtx (s.ctx.setLN (BitVec.ofNat 32 n))) ∨
    (∃ j x, i = .wrxp j x ∧ t = s.withCtx (s.ctx.setXP j x).clearXV) ∨
    (∃ j x, i = .wrzp j x ∧ t = s.withCtx (s.ctx.setZP j x).clearXV) ∨
    (∃ j v u, i = .wriv j v u ∧ u < s.params.lnMax.val ∧ t = s.withCtx (s.ctx.setIVM j u v)) ∨
    (i = .xprod ∧ crossProductStage s = .ok t) ∨ (i = .interp ∧ interpolationStage s = .ok t) ∨
    (i = .transform ∧ ∃ u, crossProductStage s = .ok u ∧ interpolationStage u = .ok t) := by
  have ok_inj {a b : State} (h : (Except.ok a : Except Fault State) = .ok b) : b = a := (Except.ok.inj h).symm
  cases i with
  | tinit =>
    left; refine ⟨rfl, ?_⟩
    simp only [exec, execTinit] at h
    split at h <;> (injection h with h; subst h; simp_all)
  | gfadd a b =>
    obtain ⟨_, _, h⟩ := (bind_eq_ok _ _ _).1 ((finish_eq_next _ _).1 h)
    exact .inr (.inl ⟨rfl, _, ok_inj h⟩)
  | gfmul a b =>
    obtain ⟨_, _, h⟩ := (bind_eq_ok _ _ _).1 ((finish_eq_next _ _).1 h)
    obtain ⟨_, _, h⟩ := (bind_eq_ok _ _ _).1 h
    exact .inr (.inl ⟨rfl, _, ok_inj h⟩)
  | gfinv a =>
    obtain ⟨_, _, h⟩ := (bind_eq_ok _ _ _).1 ((finish_eq_next _ _).1 h)
    obtain ⟨_, _, h⟩ := (bind_eq_ok _ _ _).1 h
    obtain ⟨_, _, h⟩ := (bind_eq_ok _ _ _).1 h
    obtain ⟨_, _, h⟩ := (bind_eq_ok _ _ _).1 h
    exact .inr (.inl ⟨rfl, _, ok_inj h⟩)
  | setin n =>
    obtain ⟨_, h1, h⟩ := (bind_eq_ok _ _ _).1 ((finish_eq_next _ _).1 h)
    obtain ⟨h2, rfl⟩ := (countOperand_eq_ok _ _).1 h1
    exact .inr (.inr (.inl ⟨n, rfl, h2, ok_inj h⟩))
  | seton n =>
    obtain ⟨_, h1, h⟩ := (bind_eq_ok _ _ _).1 ((finish_eq_next _ _).1 h)
    obtain ⟨h2, rfl⟩ := (countOperand_eq_ok _ _).1 h1
    exact .inr (.inr (.inr (.inl ⟨n, rfl, h2, ok_inj h⟩)))
  | setln n =>
    obtain ⟨_, h1, h⟩ := (bind_eq_ok _ _ _).1 ((finish_eq_next _ _).1 h)
    obtain ⟨h2, rfl⟩ := (lengthOperand_eq_ok _ _ _).1 h1
    exact .inr (.inr (.inr (.inr (.inl ⟨n, rfl, h2, ok_inj h⟩))))
  | wrxp j x => injection h with h; exact .inr (.inr (.inr (.inr (.inr (.inl ⟨j, x, rfl, h.symm⟩)))))
  | wrzp j x => injection h with h; exact .inr (.inr (.inr (.inr (.inr (.inr (.inl ⟨j, x, rfl, h.symm⟩))))))
  | wriv j v u =>
    obtain ⟨off, h1, h2⟩ := (bind_eq_ok _ _ _).1 ((finish_eq_next _ _).1 h)
    obtain ⟨hu, rfl⟩ := (offsetOperand_eq_ok _ _ _).1 h1
    exact .inr (.inr (.inr (.inr (.inr (.inr (.inr (.inl ⟨j, v, off, rfl, hu, ok_inj h2⟩)))))))
  | rdov j u =>
    obtain ⟨_, _, h⟩ := (bind_eq_ok _ _ _).1 ((finish_eq_next _ _).1 h)
    obtain ⟨_, _, h⟩ := (bind_eq_ok _ _ _).1 h
    exact .inr (.inl ⟨rfl, _, ok_inj h⟩)
  | xprod => exact .inr (.inr (.inr (.inr (.inr (.inr (.inr (.inr (.inl ⟨rfl, (finish_eq_next _ _).1 h⟩))))))))
  | rdic j =>
    obtain ⟨_, _, h⟩ := (bind_eq_ok _ _ _).1 ((finish_eq_next _ _).1 h)
    exact .inr (.inl ⟨rfl, _, ok_inj h⟩)
  | rdoc j =>
    obtain ⟨_, _, h⟩ := (bind_eq_ok _ _ _).1 ((finish_eq_next _ _).1 h)
    exact .inr (.inl ⟨rfl, _, ok_inj h⟩)
  | interp => exact .inr (.inr (.inr (.inr (.inr (.inr (.inr (.inr (.inr (.inl ⟨rfl, (finish_eq_next _ _).1 h⟩)))))))))
  | transform =>
    obtain ⟨u, h1, h⟩ := (bind_eq_ok _ _ _).1 ((finish_eq_next _ _).1 h)
    exact .inr (.inr (.inr (.inr (.inr (.inr (.inr (.inr (.inr (.inr ⟨rfl, u, h1, h⟩)))))))))

/-- The memories of every context after reset have the canonical form and lie in their space (10_state.md R39). -/
theorem resetWith_memories (p : Params) (more : Nat) :
    ∀ k ∈ (State.resetWith p more).contexts,
      k.IVM.wf = true ∧ k.OVM.wf = true ∧ k.IVM.inSpace p = true ∧ k.OVM.inSpace p = true := by
  intro k hk
  have : k = Context.reset := by
    simp only [State.contexts, State.resetWith, List.nil_append, List.mem_cons, List.mem_replicate] at hk
    exact hk.elim id And.right
  subst this
  exact ⟨rfl, rfl, rfl, rfl⟩

end Sys2Proof.Laws
end

