-- ==== Sys2Proof/Laws/PerInstr.lean ====
section
/-! SUPPORT. Facts about each command as syntax, one lemma for each constructor of Instr: the word the encoder writes
selects the command's own row of spec/opcode_table.json (30_encoding.md R76). -/

namespace Sys2Proof.Laws.EncodeSelectsRow

open Sys2Proof.Machine

/-- The word of the command selects the row of its mnemonic. -/
def Statement (i : Instr) : Prop := ∃ r ∈ tableRows, r.mnemonic = i.mnemonic ∧ r.selects (encode i)

/-- A row given by masks of the five fields. -/
theorem selects_of_fields (n : String) (i : Instr) (m p : Fields)
    (h : Fields.mk (i.fields.op &&& m.op) (i.fields.a &&& m.a) (i.fields.b &&& m.b) (i.fields.z &&& m.z)
      (i.fields.t &&& m.t) = p) :
    (TableRow.mk n m.toWord p.toWord).selects (encode i) := by
  show i.fields.toWord &&& m.toWord = p.toWord
  rw [toWord_and, h]

theorem tinit : Statement .tinit :=
  ⟨⟨"TINIT", 0xffffffffffffffff, 0x0100000000000000⟩, by simp [tableRows], rfl,
    selects_of_fields _ _ ⟨0xff, 0xff, 0xff, 0xff, 0xffffffff⟩ ⟨0x01, 0x00, 0x00, 0x00, 0x00000000⟩ (by simp [Instr.fields])⟩

theorem gfadd (a b : Byte) : Statement (.gfadd a b) :=
  ⟨⟨"GFADD", 0xff0000ffffffffff, 0x1000000000000000⟩, by simp [tableRows], rfl,
    selects_of_fields _ _ ⟨0xff, 0x00, 0x00, 0xff, 0xffffffff⟩ ⟨0x10, 0x00, 0x00, 0x00, 0x00000000⟩ (by simp [Instr.fields])⟩

theorem gfmul (a b : Byte) : Statement (.gfmul a b) :=
  ⟨⟨"GFMUL", 0xff0000ffffffffff, 0x1100000000000000⟩, by simp [tableRows], rfl,
    selects_of_fields _ _ ⟨0xff, 0x00, 0x00, 0xff, 0xffffffff⟩ ⟨0x11, 0x00, 0x00, 0x00, 0x00000000⟩ (by simp [Instr.fields])⟩

theorem gfinv (a : Byte) : Statement (.gfinv a) :=
  ⟨⟨"GFINV", 0xff00ffffffffffff, 0x1200000000000000⟩, by simp [tableRows], rfl,
    selects_of_fields _ _ ⟨0xff, 0x00, 0xff, 0xff, 0xffffffff⟩ ⟨0x12, 0x00, 0x00, 0x00, 0x00000000⟩ (by simp [Instr.fields])⟩

theorem setin (n : Nat) : Statement (.setin n) :=
  ⟨⟨"SETIN", 0xffffffff00000000, 0x2000000000000000⟩, by simp [tableRows], rfl,
    selects_of_fields _ _ ⟨0xff, 0xff, 0xff, 0xff, 0x00000000⟩ ⟨0x20, 0x00, 0x00, 0x00, 0x00000000⟩ (by simp [Instr.fields])⟩

theorem seton (n : Nat) : Statement (.seton n) :=
  ⟨⟨"SETON", 0xffffffff00000000, 0x2100000000000000⟩, by simp [tableRows], rfl,
    selects_of_fields _ _ ⟨0xff, 0xff, 0xff, 0xff, 0x00000000⟩ ⟨0x21, 0x00, 0x00, 0x00, 0x00000000⟩ (by simp [Instr.fields])⟩

theorem setln (n : Nat) : Statement (.setln n) :=
  ⟨⟨"SETLN", 0xffffffff00000000, 0x2200000000000000⟩, by simp [tableRows], rfl,
    selects_of_fields _ _ ⟨0xff, 0xff, 0xff, 0xff, 0x00000000⟩ ⟨0x22, 0x00, 0x00, 0x00, 0x00000000⟩ (by simp [Instr.fields])⟩

theorem wrxp (j : Fin 256) (x : Byte) : Statement (.wrxp j x) :=
  ⟨⟨"WRXP", 0xff0000ffffffffff, 0x2300000000000000⟩, by simp [tableRows], rfl,
    selects_of_fields _ _ ⟨0xff, 0x00, 0x00, 0xff, 0xffffffff⟩ ⟨0x23, 0x00, 0x00, 0x00, 0x00000000⟩ (by simp [Instr.fields])⟩

theorem wrzp (i : Fin 256) (z : Byte) : Statement (.wrzp i z) :=
  ⟨⟨"WRZP", 0xff0000ffffffffff, 0x2400000000000000⟩, by simp [tableRows], rfl,
    selects_of_fields _ _ ⟨0xff, 0x00, 0x00, 0xff, 0xffffffff⟩ ⟨0x24, 0x00, 0x00, 0x00, 0x00000000⟩ (by simp [Instr.fields])⟩

theorem wriv (j : Fin 256) (v : Byte) (t : Nat) : Statement (.wriv j v t) :=
  ⟨⟨"WRIV", 0xff0000ff00000000, 0x2500000000000000⟩, by simp [tableRows], rfl,
    selects_of_fields _ _ ⟨0xff, 0x00, 0x00, 0xff, 0x00000000⟩ ⟨0x25, 0x00, 0x00, 0x00, 0x00000000⟩ (by simp [Instr.fields])⟩

theorem rdov (i : Fin 256) (t : Nat) : Statement (.rdov i t) :=
  ⟨⟨"RDOV", 0xff00ffff00000000, 0x2600000000000000⟩, by simp [tableRows], rfl,
    selects_of_fields _ _ ⟨0xff, 0x00, 0xff, 0xff, 0x00000000⟩ ⟨0x26, 0x00, 0x00, 0x00, 0x00000000⟩ (by simp [Instr.fields])⟩

theorem xprod : Statement .xprod :=
  ⟨⟨"XPROD", 0xffffffffffffffff, 0x3000000000000000⟩, by simp [tableRows], rfl,
    selects_of_fields _ _ ⟨0xff, 0xff, 0xff, 0xff, 0xffffffff⟩ ⟨0x30, 0x00, 0x00, 0x00, 0x00000000⟩ (by simp [Instr.fields])⟩

theorem rdic (j : Fin 256) : Statement (.rdic j) :=
  ⟨⟨"RDIC", 0xff00ffffffffffff, 0x3100000000000000⟩, by simp [tableRows], rfl,
    selects_of_fields _ _ ⟨0xff, 0x00, 0xff, 0xff, 0xffffffff⟩ ⟨0x31, 0x00, 0x00, 0x00, 0x00000000⟩ (by simp [Instr.fields])⟩

theorem rdoc (i : Fin 256) : Statement (.rdoc i) :=
  ⟨⟨"RDOC", 0xff00ffffffffffff, 0x3200000000000000⟩, by simp [tableRows], rfl,
    selects_of_fields _ _ ⟨0xff, 0x00, 0xff, 0xff, 0xffffffff⟩ ⟨0x32, 0x00, 0x00, 0x00, 0x00000000⟩ (by simp [Instr.fields])⟩

theorem interp : Statement .interp :=
  ⟨⟨"INTERP", 0xffffffffffffffff, 0x4000000000000000⟩, by simp [tableRows], rfl,
    selects_of_fields _ _ ⟨0xff, 0xff, 0xff, 0xff, 0xffffffff⟩ ⟨0x40, 0x00, 0x00, 0x00, 0x00000000⟩ (by simp [Instr.fields])⟩

theorem transform : Statement .transform :=
  ⟨⟨"TRANSFORM", 0xffffffffffffffff, 0x4100000000000000⟩, by simp [tableRows], rfl,
    selects_of_fields _ _ ⟨0xff, 0xff, 0xff, 0xff, 0xffffffff⟩ ⟨0x41, 0x00, 0x00, 0x00, 0x00000000⟩ (by simp [Instr.fields])⟩

end Sys2Proof.Laws.EncodeSelectsRow
end

