-- ==== Sys2Proof/Machine/Assembler.lean ====
section
/-! DEFINITION. The text of a command and its assembly, the pseudo-commands, and the command sequence of one call of the
source's interface (spec/30_encoding.md R79, R80, R81). They are the host's: they make command lists, and no step uses
them (log 19). -/

namespace Sys2Proof.Machine

/-- The operands of a command in the order `A`, `B`, `T` (30_encoding.md R79). -/
def operandsOf : Instr → List Nat
  | .tinit | .xprod | .interp | .transform => []
  | .gfadd a b | .gfmul a b => [a.toNat, b.toNat]
  | .gfinv a => [a.toNat]
  | .setin n | .seton n | .setln n => [n]
  | .wrxp j x => [j, x.toNat]
  | .wrzp i z => [i, z.toNat]
  | .wriv j v t => [j, v.toNat, t]
  | .rdov i t => [i, t]
  | .rdic j => [j]
  | .rdoc i => [i]

/-- A command as text: the mnemonic followed by its operands, separated by commas, in decimal (30_encoding.md R79). -/
def textOf (i : Instr) : String :=
  match operandsOf i with
  | [] => i.mnemonic
  | ops => i.mnemonic ++ " " ++ ", ".intercalate (ops.map toString)

/-- The pseudo-commands (30_encoding.md R80). -/
inductive Pseudo where
  /-- subtraction is addition -/
  | gfsub (a b : Byte)
  /-- load input pair `j`: its point and its buffer -/
  | ldin (j : Fin 256) (x : Byte) (vs : List Byte)
  /-- load the output points; there are at most 256 -/
  | ldzp (zs : List Byte)
  /-- read `n` bytes of output buffer `i` -/
  | rdbuf (i : Fin 256) (n : Nat)
  deriving DecidableEq, Repr

/-- The expansion, "an abbreviation for the listed commands and nothing more" (30_encoding.md R80). DESIGN CHOICE where
the table is silent (log 19): a list or a count of length 0 is allowed, so that `LDIN j, x` with no byte is `WRXP j, x`
alone and `RDBUF i, 0` and LDZP of no point are no command; LDZP of more than 256 points loads the first 256;
an offset of LDIN or RDBUF that is 2^32 or more is no operand of any word, and `encode` takes it modulo 2^32. -/
def Pseudo.expand : Pseudo → List Instr
  | .gfsub a b => [.gfadd a b]
  | .ldin j x vs => .wrxp j x :: vs.zipIdx.map fun p => .wriv j p.1 p.2
  | .ldzp zs => (zs.take 256).zipIdx.map fun p => .wrzp (Fin.ofNat 256 p.2) p.1
  | .rdbuf i n => (List.range n).map fun t => .rdov i t

/-! ### Assembly (30_encoding.md R79) -/

/-- The text without spaces at either end. DESIGN CHOICE (log 19): the space character alone separates, and any number
of spaces may stand around a mnemonic, an operand or a comma. -/
def trimmed (l : List Char) : List Char := ((l.dropWhile (· == ' ')).reverse.dropWhile (· == ' ')).reverse

/-- The parts of a text between commas. -/
def betweenCommas : List Char → List (List Char)
  | [] => [[]]
  | c :: l =>
    if c = ',' then [] :: betweenCommas l
    else match betweenCommas l with
      | [] => [[c]]
      | part :: parts => (c :: part) :: parts

/-- The value of a digit; hexadecimal digits may be of either case (log 19). -/
def digitValue (base : Nat) (c : Char) : Option Nat :=
  let v :=
    if '0' ≤ c ∧ c ≤ '9' then c.toNat - '0'.toNat
    else if 'a' ≤ c ∧ c ≤ 'f' then c.toNat - 'a'.toNat + 10
    else if 'A' ≤ c ∧ c ≤ 'F' then c.toNat - 'A'.toNat + 10
    else base
  if v < base then some v else none

/-- The number that digits make after a value already read. -/
def digitsValue (base : Nat) : List Char → Nat → Option Nat
  | [], v => some v
  | c :: l, v =>
    match digitValue base c with
    | none => none
    | some d => digitsValue base l (v * base + d)

/-- "An operand is a decimal number or a hexadecimal number with prefix `0x`" (30_encoding.md R79). DESIGN CHOICE where
the rule is silent (log 19): leading zeros are allowed, and the prefix needs a digit after it. -/
def operandValue : List Char → Option Nat
  | [] => none
  | ['0', 'x'] => none
  | '0' :: 'x' :: l => digitsValue 16 l 0
  | l => digitsValue 10 l 0

/-- All the values, if every one is there. -/
def allSome {α : Type} : List (Option α) → Option (List α)
  | [] => some []
  | none :: _ => none
  | some v :: l => (allSome l).map (v :: ·)

/-- A number as a byte operand. -/
def byteOperand (n : Nat) : Option Byte := if n < 256 then some (BitVec.ofNat 8 n) else none

/-- A number as an index `0 ..= 255`. -/
def indexOperand (n : Nat) : Option (Fin 256) := if h : n < 256 then some ⟨n, h⟩ else none

/-- A number that the field `T` holds (30_encoding.md R71). -/
def numberOperand (n : Nat) : Option Nat := if fitsT n then some n else none

/-- The commands that a mnemonic with operands in the order `A`, `B`, `T` stands for: one command, or the expansion of a
pseudo-command (30_encoding.md R79, R80). DESIGN CHOICE where the rules are silent (log 19): in text, `LDIN j, x` with no
byte and `RDBUF i, 0` are accepted, LDZP with no point or with more than 256 is not, and an operand that its field does
not hold is not; the count `n` of RDBUF is bounded as an operand `T` is, below 2^32, although it is no field. -/
def commandsOf (m : String) (ops : List Nat) : Option (List Instr) :=
  match m, ops with
  | "TINIT", [] => some [.tinit]
  | "GFADD", [a, b] => do return [.gfadd (← byteOperand a) (← byteOperand b)]
  | "GFMUL", [a, b] => do return [.gfmul (← byteOperand a) (← byteOperand b)]
  | "GFINV", [a] => do return [.gfinv (← byteOperand a)]
  | "SETIN", [n] => do return [.setin (← numberOperand n)]
  | "SETON", [n] => do return [.seton (← numberOperand n)]
  | "SETLN", [n] => do return [.setln (← numberOperand n)]
  | "WRXP", [j, x] => do return [.wrxp (← indexOperand j) (← byteOperand x)]
  | "WRZP", [i, z] => do return [.wrzp (← indexOperand i) (← byteOperand z)]
  | "WRIV", [j, v, t] => do return [.wriv (← indexOperand j) (← byteOperand v) (← numberOperand t)]
  | "RDOV", [i, t] => do return [.rdov (← indexOperand i) (← numberOperand t)]
  | "XPROD", [] => some [.xprod]
  | "RDIC", [j] => do return [.rdic (← indexOperand j)]
  | "RDOC", [i] => do return [.rdoc (← indexOperand i)]
  | "INTERP", [] => some [.interp]
  | "TRANSFORM", [] => some [.transform]
  | "GFSUB", [a, b] => do return (Pseudo.gfsub (← byteOperand a) (← byteOperand b)).expand
  | "LDIN", j :: x :: vs => do
    return (Pseudo.ldin (← indexOperand j) (← byteOperand x) (← allSome (vs.map byteOperand))).expand
  | "LDZP", z :: zs => do
    if zs.length < 256 then return (Pseudo.ldzp (← allSome ((z :: zs).map byteOperand))).expand else none
  | "RDBUF", [i, n] => do return (Pseudo.rdbuf (← indexOperand i) (← numberOperand n)).expand
  | _, _ => none

/-- One line of text: a command or a pseudo-command, and a comment after `;` (30_encoding.md R79, R80). DESIGN CHOICE where
R79 is silent (log 19): a blank line, or one with a comment only, stands for no command, and a line that does not assemble
stands for nothing at all. -/
def assembleLine (line : String) : Option (List Instr) :=
  match trimmed (line.toList.takeWhile (· ≠ ';')) with
  | [] => some []
  | text =>
    let m := text.takeWhile (· ≠ ' ')
    let rest := trimmed (text.dropWhile (· ≠ ' '))
    match rest with
    | [] => commandsOf (String.ofList m) []
    | rest => do commandsOf (String.ofList m) (← allSome ((betweenCommas rest).map fun part => operandValue (trimmed part)))

/-- The command words of a program given as lines of text (30_encoding.md R79, R83); there are none when a line does not
assemble (DESIGN CHOICE, log 19). -/
def assemble (lines : List String) : Option (List Word) := do
  return (← allSome (lines.map assembleLine)).flatten.map encode

/-! ### The source's call (30_encoding.md R81) -/

/-- One call `transform(inputPoints, outputPoints, inputValues, outputValues, in, on, ln)` as a command sequence: the
loads, the call itself, and the reads of `outputValues` (30_encoding.md R81). "The loads may come in any order", the reads
too; this order, the cut at 256 inputs and 256 output rows, and loading a buffer at its own length are DESIGN CHOICES
(log 19). So is a count or an `ln` of 2^32 or more, which no word holds: the list has SETIN, SETON or SETLN of that number,
and `encode` takes it modulo 2^32. -/
def callSequence (inputs : List (Byte × List Byte)) (outputPoints : List Byte) (ln : Nat) : List Instr :=
  [.setin inputs.length, .seton outputPoints.length, .setln ln] ++
  ((inputs.take 256).zipIdx.flatMap fun p => (Pseudo.ldin (Fin.ofNat 256 p.2) p.1.1 p.1.2).expand) ++
  (Pseudo.ldzp outputPoints).expand ++
  [.transform] ++
  ((List.range (min outputPoints.length 256)).flatMap fun i => (Pseudo.rdbuf (Fin.ofNat 256 i) ln).expand)

end Sys2Proof.Machine
end

