-- ==== Sys2Proof/Tests/Slice0.lean ====
section
/-! SUPPORT. The smoke test of WellFormed, the words of spec/95_test_vectors.md 2.1, one step of each command with the
results of spec/95_test_vectors.md, and a witness for the hypotheses of each statement. -/

namespace Sys2Proof.Tests

open Sys2Proof.Machine

/-! ### WellFormed: a number that the field `T` cannot hold is refused (30_encoding.md R71) -/

theorem test_wf_setin : (Instr.setin (2 ^ 32 - 1)).wf = true ∧ (Instr.setin (2 ^ 32)).wf = false := by decide
theorem test_wf_seton : (Instr.seton (2 ^ 32 - 1)).wf = true ∧ (Instr.seton (2 ^ 32)).wf = false := by decide
theorem test_wf_setln : (Instr.setln (2 ^ 32 - 1)).wf = true ∧ (Instr.setln (2 ^ 32)).wf = false := by decide
theorem test_wf_wriv : (Instr.wriv 255 0xff (2 ^ 32 - 1)).wf = true ∧ (Instr.wriv 255 0xff (2 ^ 32)).wf = false := by
  decide
theorem test_wf_rdov : (Instr.rdov 255 (2 ^ 32 - 1)).wf = true ∧ (Instr.rdov 255 (2 ^ 32)).wf = false := by decide

/-! ### Decoding, the words of 95_test_vectors.md 2.1 -/

/-- W1, W2, W3, W4, W5. -/
theorem test_decode_arithmetic :
    decode 0x0100000000000000 = .ok .tinit ∧ decode 0x1053ca0000000000 = .ok (.gfadd 0x53 0xca) ∧
    decode 0x1102030000000000 = .ok (.gfmul 0x02 0x03) ∧ decode 0x11ffff0000000000 = .ok (.gfmul 0xff 0xff) ∧
    decode 0x12ff000000000000 = .ok (.gfinv 0xff) := by decide

/-- W6, W7, W9, W11. -/
theorem test_decode_numbers :
    decode 0x2000000000000003 = .ok (.setin 3) ∧ decode 0x2000000000000100 = .ok (.setin 256) ∧
    decode 0x2100000000000004 = .ok (.seton 4) ∧ decode 0x2200000000000010 = .ok (.setln 16) := by decide

/-- W12, W13, W15, W16, W17, W18. -/
theorem test_decode_transfers :
    decode 0x2302020000000000 = .ok (.wrxp 2 0x02) ∧ decode 0x23ffff0000000000 = .ok (.wrxp 255 0xff) ∧
    decode 0x2403040000000000 = .ok (.wrzp 3 0x04) ∧ decode 0x25019f0000000001 = .ok (.wriv 1 0x9f 1) ∧
    decode 0x25ffff000000000f = .ok (.wriv 255 0xff 15) ∧ decode 0x2602000000000003 = .ok (.rdov 2 3) := by decide

/-- W19, W20, W21, W22, W23. -/
theorem test_decode_stages :
    decode 0x3000000000000000 = .ok .xprod ∧ decode 0x3101000000000000 = .ok (.rdic 1) ∧
    decode 0x3203000000000000 = .ok (.rdoc 3) ∧ decode 0x4000000000000000 = .ok .interp ∧
    decode 0x4100000000000000 = .ok .transform := by decide

/-- V1 to V7. -/
theorem test_unlisted_opcodes :
    ([0x0000000000000000, 0xffffffffffffffff, 0x0200000000000000, 0x1300000000000000, 0x2700000000000000,
      0x3300000000000000, 0x4200000000000000] : List Word).map decode = List.replicate 7 (.error .unlistedOpcode) := by
  decide

/-- V8, V21. -/
theorem test_reserved_field :
    ([0x1102030100000000, 0x25019fff00000001] : List Word).map decode =
      List.replicate 2 (.error .reservedFieldNonzero) := by decide

/-- V9 to V20. -/
theorem test_unused_fields :
    ([0x1102030000000001, 0x12ff010000000000, 0x0100000000000001, 0x0101000000000000, 0x2001000000000003,
      0x2200010000000004, 0x2302020000000001, 0x2602010000000003, 0x3000000000000001, 0x3101020000000000,
      0x4000ff0000000000, 0x41000000ff000000] : List Word).map decode =
      List.replicate 12 (.error .unusedFieldNonzero) := by decide

theorem test_table_word : decodeTableWord 64 0x25019f0000000001 = some (.wriv 1 0x9f 1) := by decide

/-- 30_encoding.md R79: the text of a command. -/
theorem test_text : textOf (.wriv 1 0x9f 1) = "WRIV 1, 159, 1" ∧ textOf .transform = "TRANSFORM" := by decide

/-- The examples of 30_encoding.md R79. -/
theorem test_assemble :
    assemble ["GFMUL 0x02, 0x03", "WRIV 1, 0x9f, 1 ; row 1", "RDOV 2, 3", "SETIN 256", "TRANSFORM", ""] =
      some [0x1102030000000000, 0x25019f0000000001, 0x2602000000000003, 0x2000000000000100, 0x4100000000000000] ∧
    assemble ["SETIN"] = none ∧ assemble ["GFINV 256"] = none ∧ assemble ["NOP"] = none := by decide +kernel

/-- 30_encoding.md R80: the pseudo-commands. -/
theorem test_pseudo :
    (Pseudo.gfsub 1 2).expand = [.gfadd 1 2] ∧ (Pseudo.ldin 1 7 [8, 9]).expand = [.wrxp 1 7, .wriv 1 8 0, .wriv 1 9 1] ∧
    (Pseudo.ldzp [5, 6]).expand = [.wrzp 0 5, .wrzp 1 6] ∧ (Pseudo.rdbuf 3 2).expand = [.rdov 3 0, .rdov 3 1] := by
  decide

/-- 30_encoding.md R81: one call as a list of commands. -/
theorem test_call :
    callSequence [(0x00, [0x53]), (0x01, [0x10])] [0x02] 1 =
      [.setin 2, .seton 1, .setln 1, .wrxp 0 0x00, .wriv 0 0x53 0, .wrxp 1 0x01, .wriv 1 0x10 0, .wrzp 0 0x02, .transform,
        .rdov 0 0] := by decide

/-! ### A small machine -/

/-- What an outcome is, as plain data. -/
def after (o : Host.Outcome State Fault Refusal) (s : State) : State :=
  match o with
  | .next t => t
  | _ => s

def isNext (o : Host.Outcome State Fault Refusal) : Bool :=
  match o with
  | .next _ => true
  | _ => false

def faultOf (o : Host.Outcome State Fault Refusal) : Option Fault :=
  match o with
  | .fault r => some r
  | _ => none

theorem next_of_isNext (o : Host.Outcome State Fault Refusal) (s : State) (h : isNext o = true) : o = .next (after o s) := by
  cases o with
  | next t => rfl
  | fault r => cases h
  | refused r => cases h

theorem fault_of_faultOf (o : Host.Outcome State Fault Refusal) (r : Fault) (h : faultOf o = some r) : o = .fault r := by
  cases o with
  | next t => cases h
  | fault r' => exact congrArg _ (Option.some.inj h)
  | refused r' => cases h

/-- A context with the given points and one byte at offset 0 of each input row, its cross products not computed. -/
def load (xs zs vs : List Byte) : Context :=
  { Context.reset with
    IN := .written (BitVec.ofNat 9 xs.length), ON := .written (BitVec.ofNat 9 zs.length), LN := .written 1
    XP := RegFile.ofList xs, ZP := RegFile.ofList zs
    IVM := vs.zipIdx.map fun p => (memKey p.2 0, p.1) }

/-- Two contexts, `LN_MAX = 16`, tables ready; the first context is served and holds the given one. -/
def machine (k : Context) : State :=
  { State.resetWith { lnMax := 16, tableInit := .static } 1 with ctx := k }

/-- A line through `53` at `00` and `10` at `01` (95_test_vectors.md T2, T3). -/
def line : State := machine (load [0x00, 0x01] [0x02, 0x01] [0x53, 0x10])

/-- The same after XPROD. -/
def crossed : State := machine ((load [0x00, 0x01] [0x02, 0x01] [0x53, 0x10]).setCross [0x01, 0x01] [0x01, 0x00]).setXV

/-- The same after TRANSFORM: the outputs are `d2` and `10`. -/
def done : State := machine ((crossed.ctx).setOVM [[0xd2], [0x10]])

/-- Back from the two shares to point `00`. -/
def back : State := machine (load [0x02, 0x01] [0x00] [0xd2, 0x10])

/-- The same context on a machine whose tables are not built. -/
def notReady : State := { State.reset with ctx := line.ctx }

/-! ### One step of each command -/

theorem test_tinit : (after (exec .tinit State.reset) State.reset).TRDY = true := by decide

/-- A6: 95_test_vectors.md 2.2. -/
theorem test_gfadd : (after (exec (.gfadd 0x80 0x01) line) line).ctx.trace = [0x81] := by decide +kernel

/-- M22. -/
theorem test_gfmul : (after (exec (.gfmul 0x57 0x83) line) line).ctx.trace = [0x3a] := by decide +kernel

/-- I8. -/
theorem test_gfinv : (after (exec (.gfinv 0x53) line) line).ctx.trace = [0xfd] := by decide +kernel

/-- F4. -/
theorem test_gfinv_zero : faultOf (exec (.gfinv 0x00) line) = some .invZero := by decide +kernel

/-- H1, H13: the value 256 fits, and `XV` is cleared. -/
theorem test_setin : (after (exec (.setin 256) crossed) line).ctx.IN = .written 0x100 ∧
    (after (exec (.setin 2) crossed) crossed).ctx.XV = false := by decide +kernel

/-- H4. -/
theorem test_seton : faultOf (exec (.seton 4294967295) crossed) = some .countRange ∧
    (after (exec (.seton 0) crossed) line).ctx.ON = .written 0 := by decide +kernel

/-- H5, H6, H14. -/
theorem test_setln : (after (exec (.setln 16) crossed) line).ctx.LN = .written 16 ∧
    faultOf (exec (.setln 17) crossed) = some .lenRange ∧ (after (exec (.setln 2) crossed) line).ctx.XV = true := by
  decide +kernel

/-- H11: an entry beyond `IN`. -/
theorem test_wrxp : (after (exec (.wrxp 200 0x00) crossed) crossed).ctx.XP[200] = .written 0x00 ∧
    (after (exec (.wrxp 200 0x00) crossed) crossed).ctx.XV = false := by decide +kernel

/-- H12: the value it already holds. -/
theorem test_wrzp : (after (exec (.wrzp 0 0x02) crossed) crossed).ctx.XV = false ∧
    (after (exec (.wrzp 3 0x04) crossed) crossed).ctx.ZP[3] = .written 0x04 := by decide +kernel

/-- H7, H8. -/
theorem test_wriv : (after (exec (.wriv 0 0xab 15) crossed) line).ctx.IVM.read 0 15 = .written 0xab ∧
    faultOf (exec (.wriv 0 0xab 16) crossed) = some .lenRange := by decide +kernel

/-- H15: the last write stands; the memory stays in its one canonical form. -/
theorem test_wriv_again : (after (exec (.wriv 0 0x22 0) crossed) line).ctx.IVM = [(0, 0x22), (4294967296, 0x10)] := by
  decide +kernel

/-- T2. -/
theorem test_rdov : (after (exec (.rdov 0 0) done) done).ctx.trace = [0xd2] := by decide +kernel

/-- H9, H10. -/
theorem test_rdov_faults : faultOf (exec (.rdov 0 0) State.reset) = some .unwritten ∧
    faultOf (exec (.rdov 0 16) State.reset) = some .lenRange := by decide

/-- X3 with X5's coincident output: `ICR = 01 01`, `OCR = 01 00`. -/
theorem test_xprod : (after (exec .xprod line) line).ctx.ICR[1] = .written 0x01 ∧
    (after (exec .xprod line) line).ctx.OCR[1] = .written 0x00 ∧
    (after (exec .xprod line) line).ctx.ICR[2] = .unwritten := by decide +kernel

/-- F8. -/
theorem test_xprod_duplicate :
    faultOf (exec .xprod (machine (load [0x05, 0x05] [] []))) = some .dupPoint := by decide +kernel

theorem test_rdic : (after (exec (.rdic 1) crossed) crossed).ctx.trace = [0x01] ∧
    faultOf (exec (.rdic 2) crossed) = some .unwritten := by decide +kernel

theorem test_rdoc : (after (exec (.rdoc 1) crossed) crossed).ctx.trace = [0x00] ∧
    faultOf (exec (.rdoc 2) crossed) = some .unwritten := by decide +kernel

/-- T2, T3. -/
theorem test_interp : (after (exec .interp crossed) crossed).ctx.OVM = done.ctx.OVM := by decide +kernel

/-- F10. -/
theorem test_interp_stale : faultOf (exec .interp line) = some .staleCross := by decide +kernel

/-- T2, T3. -/
theorem test_transform : (after (exec .transform line) line).ctx.OVM = done.ctx.OVM := by decide +kernel

/-- T8: back to point `00`. -/
theorem test_transform_back : (after (exec .transform back) back).ctx.OVM = [(0, 0x53)] := by decide +kernel

/-- V8 as a step. -/
theorem test_step_reserved : faultOf (step (State.reset.withFetchWord 64 0x1102030100000000)) = some .illegalCmd := by
  decide

/-- K1. -/
theorem test_step_first_gfmul : faultOf (step (State.reset.withFetchWord 64 0x1102020000000000)) = some .tablesNotReady := by
  decide

/-- P7: context 1 issues TRANSFORM before any TINIT, and stops; context 0 is not affected. -/
theorem test_step_other_context_goes_on :
    let s := (State.resetWith Params.default 1).issueProgram 1 [0x4100000000000000]
    (after (step s) s).contexts.map (·.fault) = [none, some .tablesNotReady] ∧
    (after (step s) s).contexts[0]? = some Context.reset := by decide +kernel

/-- E5, E6, E3: 95_test_vectors.md 2.2, the construction itself. -/
theorem test_construction : mexMul 2 3 = 1 ∧ mexMul 3 3 = 2 ∧ mexMul 1 5 = 5 := by decide +kernel

/-! ### The small machine meets the invariant and the callers' conditions -/

/-- The parameters of `machine`. -/
def params : Params := { lnMax := 16, tableInit := .static }

theorem reset_ok (p : Params) (b : Bool) : Context.reset.Ok p b where
  count_in n h := by cases h
  count_out n h := by cases h
  length n h := by cases h
  ivm_wf := rfl
  ivm_space := rfl
  ovm_wf := rfl
  ovm_space := rfl
  cross h := by cases h

/-- A loaded context is legal: `XV = 0`, and the counts, the length and the memory are in range. -/
theorem load_ok (xs zs vs : List Byte) (b : Bool) (hx : (BitVec.ofNat 9 xs.length).toNat ≤ 256)
    (hz : (BitVec.ofNat 9 zs.length).toNat ≤ 256) (hw : (load xs zs vs).IVM.wf = true)
    (hs : (load xs zs vs).IVM.inSpace params = true) : (load xs zs vs).Ok params b where
  count_in n h := by cases h; exact hx
  count_out n h := by cases h; exact hz
  length n h := by cases h; decide
  ivm_wf := hw
  ivm_space := hs
  ovm_wf := rfl
  ovm_space := rfl
  cross h := by cases h

theorem machine_inv (k : Context) (h : k.Ok params true) : (machine k).Inv where
  ready _ := ⟨rfl, rfl⟩
  not_ready h := by cases h
  contexts := by
    intro c hc
    simp only [State.contexts, machine, State.resetWith, List.nil_append, List.replicate, List.mem_cons,
      List.not_mem_nil, or_false] at hc
    rcases hc with rfl | rfl
    · exact h
    · exact reset_ok _ _

theorem line_inv : line.Inv := machine_inv _ (load_ok _ _ _ _ (by decide) (by decide) (by decide) (by decide))

theorem line_ready : line.XprodReady [0x00, 0x01] [0x02, 0x01] where
  trdy := rfl
  count_in := rfl
  count_out := rfl
  nonempty := by decide
  points_in := Laws.first_ofList _ (by decide)
  points_out := Laws.first_ofList _ (by decide)
  distinct := by decide

/-- The input bytes of `line`, by row. -/
def lineBytes (j : Nat) (_ : Nat) : Byte := if j = 0 then 0x53 else 0x10

theorem line_values : line.ValuesReady 2 1 lineBytes where
  length := ⟨1, rfl, rfl⟩
  values := by decide

theorem crossed_valid : crossed.ctx.CrossValid :=
  ⟨[0x00, 0x01], [0x02, 0x01], rfl, rfl, by decide, Laws.first_ofList _ (by decide), Laws.first_ofList _ (by decide),
    by decide, by decide +kernel, by decide +kernel⟩

theorem crossed_inv : crossed.Inv :=
  machine_inv _ { load_ok [0x00, 0x01] [0x02, 0x01] [0x53, 0x10] true (by decide) (by decide) (by decide) (by decide) with
    cross := fun _ => ⟨rfl, crossed_valid⟩ }

theorem notReady_inv : notReady.Inv where
  ready h := by cases h
  not_ready _ := ⟨rfl, rfl, rfl⟩
  contexts := by
    intro c hc
    simp only [State.contexts, notReady, State.reset, State.resetWith, List.nil_append, List.replicate,
      List.mem_singleton] at hc
    subst hc
    exact { load_ok [0x00, 0x01] [0x02, 0x01] [0x53, 0x10] false (by decide) (by decide) (by decide) (by decide) with
      cross := fun h => by cases h }

/-- Words still to be issued do not touch the invariant. -/
theorem presentFirst_inv (s : State) (w : Word) (h : s.Inv) : (s.presentFirst w).Inv := ⟨h.ready, h.not_ready, h.contexts⟩

/-- `line` with XPROD to be issued at its port. -/
def lineThenXprod : State := line.presentFirst 0x3000000000000000

/-! ### Witnesses: for each statement, a state and operands that meet its hypotheses -/

theorem witness_DecodeOfEncode : (Instr.wriv 255 0xff (2 ^ 32 - 1)).wf = true := by decide

theorem witness_EncodeOfDecode : decode 0x25ffff00ffffffff = .ok (.wriv 255 0xff (2 ^ 32 - 1)) := by decide

theorem witness_DecoderSelectsByMaskAndMatch :
    ∃ r ∈ tableRows, r.selects 0x1102030000000000 ∧ decode 0x1102030000000000 = .ok (.gfmul 2 3) ∧
      (Instr.gfmul 2 3).mnemonic = r.mnemonic :=
  ⟨⟨"GFMUL", 0xff0000ffffffffff, 0x1100000000000000⟩, by simp [tableRows], by unfold TableRow.selects; decide, by decide, rfl⟩

/-- `line`, whose other context has stopped and still has a word pending before the XPROD and the reserved word of
`line`'s own context. -/
def halfStopped : State :=
  { line with
    after := [{ Context.reset with fault := some .unwritten }]
    issue := [(1, 0x0100000000000000), (0, 0x3000000000000000)] }

theorem line_running : line.Running 0 ∧ line.Running 1 := ⟨⟨_, rfl, rfl⟩, _, rfl, rfl⟩

/-- A word behind one of a stopped context; a command that completes, and an undefined one beside a context that goes
on and beside none. -/
theorem witness_StepPerformsTheDecodedCommand :
    (halfStopped.issue = [(1, 0x0100000000000000)] ++ (0, 0x3000000000000000) :: [] ∧ halfStopped.Stopped 1 ∧
      halfStopped.Running 0 ∧ decode 0x3000000000000000 = .ok .xprod ∧ isNext (exec .xprod halfStopped) = true) ∧
    (exec (.gfinv 0) line = .fault .invZero ∧ line.Running 1) ∧
    exec (.gfinv 0) notReady = .fault .tablesNotReady ∧ ∀ q, q ≠ 0 → ¬notReady.Running q := by
  refine ⟨⟨rfl, ⟨_, _, rfl, rfl⟩, ⟨_, rfl, rfl⟩, by decide, by decide +kernel⟩, ⟨rfl, line_running.2⟩, rfl, ?_⟩
  rintro (_ | q) h ⟨k, hk, -⟩
  · exact h rfl
  · cases hk

theorem witness_ReservedWordFaults :
    (line.presentFirst 0x1102030100000000).issue = [] ++ (0, 0x1102030100000000) :: [] ∧ line.Running 0 ∧
    ∀ r ∈ tableRows, ¬ r.selects 0x1102030100000000 := by
  refine ⟨rfl, line_running.1, ?_⟩
  simp [tableRows, TableRow.selects]

/-- Nothing pending, with a context that goes on and with none. -/
theorem witness_IdleStepKeepsAllState :
    (State.reset.issue = [] ∧ State.reset.Running 0) ∧
    ∀ q, ¬({ State.reset with ctx := { Context.reset with fault := some .unwritten } } : State).Running q := by
  refine ⟨⟨rfl, _, rfl, rfl⟩, ?_⟩
  rintro (_ | q) ⟨k, hk, hf⟩
  · cases hk
    cases hf
  · cases hk

theorem witness_FaultIsNeverCleared :
    (∃ t, step halfStopped = .next t) ∧ ∃ k, halfStopped.contexts[1]? = some k ∧ k.fault = some .unwritten :=
  ⟨⟨_, next_of_isNext _ line (by decide +kernel)⟩, _, rfl, rfl⟩

theorem witness_FieldLaws : (0x01 : Byte) ≠ 0 ∧ (0xff : Byte) ≠ 0 := by decide

theorem witness_ConsequencesOfTheConstruction :
    gfMul 0x00 0xff = 0 ∧ (0x01 : Byte).toNat < 2 ∧ (0x03 : Byte).toNat < 4 ∧ (0x0f : Byte).toNat < 16 ∧
    gfInv 0x0f = some 0x04 ∧ gfInv 0x03 = some 0x02 ∧ gfInv 0x01 = some 0x01 := by decide +kernel

theorem witness_TinitBuildsTheTables : line.TRDY = true ∧ State.reset.TRDY = false := ⟨rfl, rfl⟩

theorem witness_GfaddRespondsSum : line.TRDY = true ∧ notReady.TRDY = false := ⟨rfl, rfl⟩

theorem witness_GfmulRespondsProduct : (line.Inv ∧ line.TRDY = true) ∧ notReady.Inv ∧ notReady.TRDY = false :=
  ⟨⟨line_inv, rfl⟩, notReady_inv, rfl⟩

theorem witness_GfinvRespondsInverse :
    (line.Inv ∧ line.TRDY = true ∧ (0x01 : Byte) ≠ 0 ∧ (0x00 : Byte) = 0) ∧ notReady.Inv ∧ notReady.TRDY = false :=
  ⟨⟨line_inv, rfl, by decide, rfl⟩, notReady_inv, rfl⟩

theorem witness_SetinWritesIN : 256 ≤ 256 ∧ 257 > 256 ∧ 2 ^ 32 - 1 < 2 ^ 32 := by decide

theorem witness_SetonWritesON : 0 ≤ 256 ∧ 256 ≤ 256 ∧ 257 > 256 := by decide

theorem witness_SetlnWritesLN : 16 ≤ line.params.lnMax.val ∧ 17 > line.params.lnMax.val := by decide

theorem witness_WrxpWritesOneInputPoint : (254 : Fin 256) ≠ 255 := by decide

theorem witness_WrzpWritesOneOutputPoint : (0 : Fin 256) ≠ 255 := by decide

theorem witness_WrivWritesOneByte :
    15 < line.params.lnMax.val ∧ 16 ≥ line.params.lnMax.val ∧ ¬((1 : Nat) = 0 ∧ (15 : Nat) = 15) := by decide

theorem witness_RdovRespondsOneByte :
    (0 < done.params.lnMax.val ∧ done.ctx.OVM.read 0 0 = .written 0xd2) ∧
    (15 < done.params.lnMax.val ∧ done.ctx.OVM.read 0 15 = .unwritten) ∧ 16 ≥ done.params.lnMax.val := by decide +kernel

theorem witness_WritesAreIdempotent :
    (∃ u, exec (.wriv 255 0xff 15) line = .next u) ∧ (∃ u, exec (.wrxp 255 0xff) line = .next u) ∧
    ∃ u, exec (.wrzp 255 0xff) line = .next u :=
  ⟨⟨_, next_of_isNext _ line (by decide)⟩, ⟨_, rfl⟩, _, rfl⟩

theorem witness_XprodComputesTheVectors : line.TablesFinal ∧ line.XprodReady [0x00, 0x01] [0x02, 0x01] :=
  ⟨⟨rfl, rfl⟩, line_ready⟩

/-- The smallest counts: one input point, no output point. -/
theorem witness_XprodComputesTheVectors_smallest : (machine (load [0xff] [] [])).XprodReady [0xff] [] where
  trdy := rfl
  count_in := rfl
  count_out := rfl
  nonempty := by decide
  points_in := Laws.first_ofList _ (by decide)
  points_out := Laws.first_ofList _ (by decide)
  distinct := by decide

theorem witness_CrossProductConditions_tables : notReady.Inv ∧ notReady.TRDY = false := ⟨notReady_inv, rfl⟩

theorem witness_CrossProductConditions_counts :
    (machine Context.reset).Inv ∧ (machine Context.reset).TRDY = true ∧ (machine Context.reset).ctx.IN = .unwritten :=
  ⟨machine_inv _ (reset_ok _ _), rfl, rfl⟩

theorem witness_CrossProductConditions_zero :
    (machine (load [] [0x00] [])).Inv ∧ (machine (load [] [0x00] [])).TRDY = true ∧
    (machine (load [] [0x00] [])).ctx.IN = .written 0 ∧ (machine (load [] [0x00] [])).ctx.ON = .written 1 :=
  ⟨machine_inv _ (load_ok _ _ _ _ (by decide) (by decide) rfl rfl), rfl, rfl, rfl⟩

/-- `IN = 2` with only entry 0 written, and `ON = 1` with no entry written (F7). -/
theorem witness_CrossProductConditions_points :
    (machine { load [0x05] [] [] with IN := .written 2, ON := .written 1 }).Inv ∧
    (load [0x05] [] []).XP[(1 : Fin 256)] = .unwritten ∧ (load [0x05] [] []).ZP[(0 : Fin 256)] = .unwritten :=
  ⟨machine_inv _ { load_ok [0x05] [] [] true (by decide) (by decide) rfl rfl with
      count_in := fun n h => by cases h; decide
      count_out := fun n h => by cases h; decide
      cross := fun h => by cases h }, by decide, by decide⟩

/-- F8. -/
theorem witness_CrossProductConditions_duplicate :
    (machine (load [0x05, 0x05] [] [])).Inv ∧
    (∀ j : Fin 256, j.val < 2 → (load [0x05, 0x05] [] []).XP[j] ≠ .unwritten) ∧
    (load [0x05, 0x05] [] []).XP[(0 : Fin 256)] = (load [0x05, 0x05] [] []).XP[(1 : Fin 256)] :=
  ⟨machine_inv _ (load_ok _ _ _ _ (by decide) (by decide) rfl rfl), by decide +kernel, by decide⟩

theorem witness_RdicRespondsInputCrossProduct :
    crossed.ctx.ICR[(1 : Fin 256)] = .written 0x01 ∧ crossed.ctx.ICR[(2 : Fin 256)] = .unwritten := by decide

theorem witness_RdocRespondsOutputCrossProduct :
    crossed.ctx.OCR[(1 : Fin 256)] = .written 0x00 ∧ crossed.ctx.OCR[(255 : Fin 256)] = .unwritten := by decide

theorem witness_CrossProductFacts :
    ([0x00, 0x01] : List Byte).Nodup ∧ ([0x05, 0x05] : List Byte)[0] = ([0x05, 0x05] : List Byte)[1] ∧
    ([0x00, 0x01] : List Byte).Perm [0x01, 0x00] := by decide

theorem witness_InterpWritesTheInterpolant :
    crossed.Inv ∧ crossed.ctx.XV = true ∧ crossed.XprodReady [0x00, 0x01] [0x02, 0x01] ∧
    crossed.ValuesReady 2 1 lineBytes :=
  ⟨crossed_inv, rfl, { line_ready with }, { line_values with }⟩

theorem witness_InterpConditions_first :
    (notReady.Inv ∧ notReady.TRDY = false) ∧ line.Inv ∧ line.TRDY = true ∧ line.ctx.XV = false :=
  ⟨⟨notReady_inv, rfl⟩, line_inv, rfl, rfl⟩

/-- `LN` unwritten (F15), and `LN = 2` with offset 1 unwritten (F13). -/
theorem witness_InterpConditions_values :
    (machine { crossed.ctx with LN := .unwritten }).Inv ∧ (machine { crossed.ctx with LN := .written 2 }).Inv ∧
    crossed.ctx.XV = true ∧ crossed.ctx.IN = .written 2 ∧ crossed.ctx.IVM.read 0 1 = .unwritten :=
  ⟨machine_inv _ { crossed_inv.contexts crossed.ctx (.head _) with
      length := fun n h => by cases h
      cross := fun _ => ⟨rfl, crossed_valid⟩ },
    machine_inv _ { crossed_inv.contexts crossed.ctx (.head _) with
      length := fun n h => by cases h; decide
      cross := fun _ => ⟨rfl, crossed_valid⟩ },
    rfl, rfl, by decide⟩

theorem witness_TransformComputesBothStages :
    line.TablesFinal ∧ line.XprodReady [0x00, 0x01] [0x02, 0x01] ∧ line.ValuesReady 2 1 lineBytes :=
  ⟨⟨rfl, rfl⟩, line_ready, line_values⟩

theorem witness_TransformIsXprodThenInterp :
    (∃ t, exec .xprod line = .next t) ∧ exec .xprod notReady = .fault .tablesNotReady :=
  ⟨⟨_, next_of_isNext _ line (by decide +kernel)⟩, fault_of_faultOf _ _ (by decide +kernel)⟩

/-- `line` and `crossed` agree on what TRANSFORM reads and differ in `XV`, `ICR` and `OCR`. -/
theorem witness_TransformIsPure :
    line.MULT = crossed.MULT ∧ line.INVT = crossed.INVT ∧ line.ctx.IN = crossed.ctx.IN ∧ line.ctx.ON = crossed.ctx.ON ∧
    line.ctx.LN = crossed.ctx.LN ∧ line.ctx.XP = crossed.ctx.XP ∧ line.ctx.ZP = crossed.ctx.ZP ∧
    line.ctx.IVM = crossed.ctx.IVM ∧ line.ctx.XV ≠ crossed.ctx.XV ∧ ∃ t, exec .transform line = .next t :=
  ⟨rfl, rfl, rfl, rfl, rfl, rfl, rfl, rfl, by decide, _, next_of_isNext _ line (by decide +kernel)⟩

theorem witness_InterpolationLeavesTheRest :
    (∃ t, exec .interp crossed = .next t) ∧ crossed.ctx.ON = .written 2 ∧ crossed.ctx.LN = .written 1 ∧
    (2 : BitVec 9).toNat ≤ 2 ∧ (1 : BitVec 32).toNat ≤ 1 :=
  ⟨⟨_, next_of_isNext _ crossed (by decide +kernel)⟩, rfl, rfl, by decide, by decide⟩

theorem line_transform : exec .transform line = .next (after (exec .transform line) line) :=
  next_of_isNext _ _ (by decide +kernel)

theorem back_transform : exec .transform back = .next (after (exec .transform back) back) :=
  next_of_isNext _ _ (by decide +kernel)

/-- Output 1 coincides with input 1. -/
theorem witness_CoincidentOutputCopiesInput :
    line.TablesFinal ∧ line.XprodReady [0x00, 0x01] [0x02, 0x01] ∧ line.ValuesReady 2 1 lineBytes ∧
    (∃ t, exec .transform line = .next t) ∧ ([0x02, 0x01] : List Byte)[1] = ([0x00, 0x01] : List Byte)[1] :=
  ⟨⟨rfl, rfl⟩, line_ready, line_values, ⟨_, line_transform⟩, rfl⟩

/-- T1. -/
def single : State := machine (load [0x07] [0xff] [0x42])

theorem witness_SingleInputIsCopied :
    single.TablesFinal ∧ single.XprodReady [0x07] [0xff] ∧ single.ValuesReady 1 1 (fun _ _ => 0x42) ∧
    ∃ t, exec .transform single = .next t :=
  ⟨⟨rfl, rfl⟩,
    { trdy := rfl
      count_in := rfl
      count_out := rfl
      nonempty := by decide
      points_in := Laws.first_ofList _ (by decide)
      points_out := Laws.first_ofList _ (by decide)
      distinct := by decide },
    { length := ⟨1, rfl, rfl⟩, values := by decide }, _, next_of_isNext _ single (by decide +kernel)⟩

theorem witness_OutputIsTheInterpolatingPolynomial :
    line.TablesFinal ∧ line.XprodReady [0x00, 0x01] [0x02, 0x01] ∧ line.ValuesReady 2 1 lineBytes ∧
    ∃ t, exec .transform line = .next t :=
  ⟨⟨rfl, rfl⟩, line_ready, line_values, _, line_transform⟩

theorem witness_PolynomialFixedByItsValues :
    ([0x53, 0x43] : List Byte).length = ([0x00, 0x01] : List Byte).length ∧ ([0x00, 0x01] : List Byte).Nodup ∧
    ∀ x ∈ ([0x00, 0x01] : List Byte), polyEval [0x53, 0x43] x = polyEval [0x53, 0x43] x :=
  ⟨rfl, by decide, fun _ _ => rfl⟩

/-- The bytes of the two shares, by row of `back`. -/
def shareBytes (j : Nat) (_ : Nat) : Byte := if j = 0 then 0xd2 else 0x10

/-- The two shares of `line` fed back at their points. -/
theorem witness_ReconstructionRecoversTheSecret :
    (line.TablesFinal ∧ line.XprodReady [0x00, 0x01] [0x02, 0x01] ∧ line.ValuesReady 2 1 lineBytes) ∧
    (back.TablesFinal ∧ back.XprodReady [0x02, 0x01] [0x00] ∧ back.ValuesReady 2 1 shareBytes) ∧
    exec .transform line = .next (after (exec .transform line) line) ∧
    exec .transform back = .next (after (exec .transform back) back) ∧
    (∀ j < 2, ∃ i < 2, ([0x02, 0x01] : List Byte).getD j 0 = ([0x02, 0x01] : List Byte).getD i 0 ∧
      ∀ u < 1, back.ctx.IVM.read j u = (after (exec .transform line) line).ctx.OVM.read i u) ∧
    ([0x00] : List Byte).getD 0 0 = ([0x00, 0x01] : List Byte).getD 0 0 :=
  ⟨⟨⟨rfl, rfl⟩, line_ready, line_values⟩,
    ⟨⟨rfl, rfl⟩,
      { trdy := rfl
        count_in := rfl
        count_out := rfl
        nonempty := by decide
        points_in := Laws.first_ofList _ (by decide)
        points_out := Laws.first_ofList _ (by decide)
        distinct := by decide },
      { length := ⟨1, rfl, rfl⟩, values := by decide }⟩,
    line_transform, back_transform, by rw [test_transform]; decide, rfl⟩

theorem witness_ResetValues : Params.default.tableInit = .explicit ∧ params.tableInit = .static := ⟨rfl, rfl⟩

theorem witness_StepKeepsInvariant : lineThenXprod.Inv ∧ ∃ t, step lineThenXprod = .next t :=
  ⟨presentFirst_inv _ _ line_inv, _, next_of_isNext _ line (by decide +kernel)⟩

theorem witness_TablesNeverChangeOnceReady :
    (∃ t, step lineThenXprod = .next t) ∧ lineThenXprod.TRDY = true ∧ Instr.xprod ≠ .tinit ∧
    ∃ t, exec .xprod line = .next t :=
  ⟨⟨_, next_of_isNext _ line (by decide +kernel)⟩, rfl, by decide, _, next_of_isNext _ line (by decide +kernel)⟩

/-- XPROD sets `XV` and writes `ICR`; SETIN clears `XV` and writes `IN`. -/
theorem witness_OnlyListedCommandsWrite :
    (isNext (exec .xprod line) = true ∧ (after (exec .xprod line) line).ctx.XV = true ∧ line.ctx.XV = false) ∧
    isNext (exec (.setin 1) crossed) = true ∧ (after (exec (.setin 1) crossed) crossed).ctx.XV = false ∧
    (after (exec (.setin 1) crossed) crossed).ctx.IN ≠ crossed.ctx.IN := by decide +kernel

theorem witness_ResponsesOfACommand :
    (isNext (exec (.rdic 1) crossed) = true ∧ (Instr.rdic 1).responds = true) ∧
    isNext (exec (.setin 1) crossed) = true ∧ (Instr.setin 1).responds = false := by decide +kernel

theorem witness_ReasonsOfACommand :
    (line.Inv ∧ exec (.gfinv 0) line = .fault .invZero) ∧ notReady.Inv ∧ exec .interp notReady = .fault .tablesNotReady :=
  ⟨⟨line_inv, rfl⟩, notReady_inv, rfl⟩

theorem witness_CommandSeesItsOwnContextOnly :
    (∃ t, exec (.rdic 1) crossed = .next t) ∧ exec (.rdic 2) crossed = .fault .unwritten :=
  ⟨⟨_, next_of_isNext _ crossed (by decide +kernel)⟩, fault_of_faultOf _ _ (by decide +kernel)⟩

theorem witness_StepLeavesOtherContexts :
    lineThenXprod.issue = [] ++ (0, 0x3000000000000000) :: [] ∧ lineThenXprod.Running 0 ∧
    (∃ t, step lineThenXprod = .next t) ∧ (1 : Nat) ≠ 0 :=
  ⟨rfl, ⟨_, rfl, rfl⟩, ⟨_, next_of_isNext _ line (by decide +kernel)⟩, by decide⟩

theorem run_one (s t : State) (h : step s = .next t) : RunsTo 1 s t := by
  simp only [RunsTo, Host.Core.run]
  rw [show Sys2Proof.core.step s = .next t from h]

/-- `line` with the undefined `GFINV 0` to be issued at its port. -/
def lineThenUndefined : State := line.presentFirst 0x1200000000000000

/-- A run in which the other context ends unstopped, and one in which the context served stops. -/
theorem witness_EachContextRunsAsAlone :
    (lineThenXprod.TRDY = true ∧ (∃ t, RunsTo 1 lineThenXprod t) ∧ lineThenXprod.contexts[1]? = some Context.reset ∧
      Context.reset.fault = none) ∧
    lineThenUndefined.TRDY = true ∧
    ∃ t d, RunsTo 1 lineThenUndefined t ∧ t.contexts[0]? = some d ∧ d.fault = some .invZero :=
  ⟨⟨rfl, ⟨_, run_one _ _ (next_of_isNext _ line (by decide +kernel))⟩, rfl, rfl⟩, rfl, _, _,
    run_one lineThenUndefined _ (next_of_isNext _ line (by decide +kernel)), rfl, by decide +kernel⟩

theorem reset_inv : (State.resetWith Params.default 1).Inv where
  ready h := by cases h
  not_ready _ := ⟨rfl, rfl, rfl⟩
  contexts := by
    intro c hc
    simp only [State.contexts, State.resetWith, List.nil_append, List.replicate, List.mem_cons, List.not_mem_nil,
      or_false, or_self] at hc
    subst hc
    exact reset_ok _ _

/-- Two contexts, tables to be built; the second context is served after TINIT of the first. -/
theorem witness_TinitServesEveryContext :
    (State.resetWith Params.default 1).Inv ∧
    (∃ t u, exec .tinit (State.resetWith Params.default 1) = .next t ∧ t.select 1 = some u) :=
  ⟨reset_inv, _, _, rfl, rfl⟩

end Sys2Proof.Tests
end

/-! ### Proofs of the state family: what replaces what, what keeps a context legal, the invariant

The layer first (ports, the two stages, the legal contexts), then the invariant through a command and a step, then the
settled obligations. -/

namespace Sys2Proof.Proofs

open Sys2Proof.Machine Sys2Proof.Laws

/-! #### What serving a port and performing a command replace -/

theorem mem_contexts_withCtx (s : State) (k c : Context) (h : c ∈ (s.withCtx k).contexts) :
    c = k ∨ c ∈ s.contexts := by
  simp only [State.contexts, state_withCtx_before, state_withCtx_ctx, state_withCtx_after, List.mem_append,
    List.mem_cons] at h ⊢
  tauto

theorem ctx_mem_contexts (s : State) : s.ctx ∈ s.contexts := by simp [State.contexts]

/-- Serving a port, with other words left to issue, is what `State.Serves` says. -/
theorem serves_of_select (s s' : State) (q : List (Nat × Word)) (port : Nat)
    (h : ({ s with issue := q } : State).select port = some s') : s.Serves s' port q := by
  obtain ⟨-, -, hparams, hmult, hinvt, htrdy, hissue⟩ := (select_eq_some _ _ _).1 h
  obtain ⟨-, hplace, hserved⟩ := select_ctx _ _ _ h
  exact ⟨select_contexts { s with issue := q } s' port h, hplace, hserved, hissue, hparams, hmult, hinvt, htrdy⟩

theorem crossProductStage_replaces_cross (s t : State) (h : crossProductStage s = .ok t) :
    ∃ ics ocs, t = s.withCtx (s.ctx.setCross ics ocs).setXV := by
  obtain ⟨_, _, xs, zs, mul, -, -, -, -, -, -, -, -, rfl⟩ := (crossProductStage_eq_ok s t).1 h
  exact ⟨inCross mul xs, outCross mul xs zs, rfl⟩

theorem interpolationStage_replaces_OVM (s t : State) (h : interpolationStage s = .ok t) :
    ∃ rows, t = s.withCtx (s.ctx.setOVM rows) := by
  obtain ⟨_, _, _, _, _, _, _, _, _, rows, -, -, -, -, -, -, -, -, -, -, -, -, rfl⟩ :=
    (interpolationStage_eq_ok s t).1 h
  exact ⟨rows, rfl⟩

/-- Both stages in a row, as TRANSFORM runs them (42_interpolation.md R148). -/
theorem both_stages_replace_cross_and_OVM (s u t : State) (hx : crossProductStage s = .ok u)
    (hp : interpolationStage u = .ok t) :
    ∃ ics ocs rows, t = s.withCtx ((s.ctx.setCross ics ocs).setXV.setOVM rows) := by
  obtain ⟨ics, ocs, rfl⟩ := crossProductStage_replaces_cross s u hx
  obtain ⟨rows, rfl⟩ := interpolationStage_replaces_OVM _ t hp
  exact ⟨ics, ocs, rows, rfl⟩

/-- Every command but TINIT replaces the context served and nothing else (10_state.md R20; 60_exceptions.md R195). -/
theorem exec_replaces_ctx (i : Instr) (s t : State) (hi : i ≠ .tinit) (h : exec i s = .next t) :
    ∃ k, t = s.withCtx k := by
  rcases exec_eq_next i s t h with ⟨rfl, -⟩ | ⟨-, _, rfl⟩ | ⟨_, -, -, rfl⟩ | ⟨_, -, -, rfl⟩ | ⟨_, -, -, rfl⟩ |
    ⟨_, _, -, rfl⟩ | ⟨_, _, -, rfl⟩ | ⟨_, _, _, -, -, rfl⟩ | ⟨-, hx⟩ | ⟨-, hp⟩ | ⟨-, u, hx, hp⟩
  · exact absurd rfl hi
  -- a responding command, and the six commands with which the host writes one location
  iterate 7 exact ⟨_, rfl⟩
  · obtain ⟨_, _, rfl⟩ := crossProductStage_replaces_cross s t hx
    exact ⟨_, rfl⟩
  · obtain ⟨_, rfl⟩ := interpolationStage_replaces_OVM s t hp
    exact ⟨_, rfl⟩
  · obtain ⟨_, _, _, rfl⟩ := both_stages_replace_cross_and_OVM s u t hx hp
    exact ⟨_, rfl⟩

/-! #### Which updates keep a context legal -/

/-- A count register that SETIN or SETON writes is at most 256 (43_host_access.md R161, R162). -/
theorem count_ofNat_le (n : Nat) (hn : n ≤ 256) : (BitVec.ofNat 9 n).toNat ≤ 256 := by
  rw [BitVec.toNat_ofNat, Nat.mod_eq_of_lt (by omega)]
  exact hn

theorem ok_setIN (p : Params) (b : Bool) (k : Context) (n : Nat) (hn : n ≤ 256) (hk : k.Ok p b) :
    (k.setIN (BitVec.ofNat 9 n)).clearXV.Ok p b :=
  { hk with
    count_in := by rintro _ ⟨⟩; exact count_ofNat_le n hn
    cross := by simp }

theorem ok_setON (p : Params) (b : Bool) (k : Context) (n : Nat) (hn : n ≤ 256) (hk : k.Ok p b) :
    (k.setON (BitVec.ofNat 9 n)).clearXV.Ok p b :=
  { hk with
    count_out := by rintro _ ⟨⟩; exact count_ofNat_le n hn
    cross := by simp }

theorem ok_setLN (p : Params) (b : Bool) (k : Context) (n : Nat) (hn : n ≤ p.lnMax.val) (hk : k.Ok p b) :
    (k.setLN (BitVec.ofNat 32 n)).Ok p b :=
  { hk with
    length := by
      rintro _ ⟨⟩
      rw [BitVec.toNat_ofNat]
      exact (Nat.mod_le _ _).trans hn }

theorem ok_setXP (p : Params) (b : Bool) (k : Context) (j : Fin 256) (x : Byte) (hk : k.Ok p b) :
    (k.setXP j x).clearXV.Ok p b := { hk with cross := by simp }

theorem ok_setZP (p : Params) (b : Bool) (k : Context) (i : Fin 256) (z : Byte) (hk : k.Ok p b) :
    (k.setZP i z).clearXV.Ok p b := { hk with cross := by simp }

theorem ok_setIVM (p : Params) (b : Bool) (k : Context) (j : Fin 256) (v : Byte) (t : Nat) (ht : t < p.lnMax.val)
    (hk : k.Ok p b) : (k.setIVM j t v).Ok p b :=
  { hk with
    ivm_wf := write_wf _ _ _ _ hk.ivm_wf
    ivm_space := write_inSpace _ p _ _ _ j.isLt ht hk.ivm_space }

theorem ok_setOVM (p : Params) (b : Bool) (k : Context) (rows : List (List Byte)) (hrows : rows.length ≤ 256)
    (hlen : ∀ row ∈ rows, row.length ≤ p.lnMax.val) (hk : k.Ok p b) : (k.setOVM rows).Ok p b :=
  { hk with
    ovm_wf := writeRows_wf _ _ _ hk.ovm_wf
    ovm_space := writeRows_inSpace _ _ p _ (by simpa using hrows) hlen hk.ovm_space }

theorem ok_setCross (p : Params) (k : Context) (ics ocs : List Byte)
    (hv : (k.setCross ics ocs).setXV.CrossValid) (hk : k.Ok p true) : (k.setCross ics ocs).setXV.Ok p true :=
  { hk with cross := fun _ => ⟨rfl, hv⟩ }

theorem ok_respond (p : Params) (b : Bool) (k : Context) (v : Byte) (hk : k.Ok p b) : (k.respond v).Ok p b :=
  { hk with }

theorem ok_recordFault (p : Params) (b : Bool) (k : Context) (r : Fault) (hk : k.Ok p b) :
    (k.recordFault r).Ok p b := { hk with }

/-- A legal context stays legal when the tables become ready: `XV` was 0. -/
theorem ok_of_tables_ready (p : Params) (k : Context) (hk : k.Ok p false) : k.Ok p true :=
  { hk with cross := fun hx => ⟨rfl, (hk.cross hx).2⟩ }

/-! #### What the two stages leave in the context served -/

/-- A count of at most 256 is the number of entries read, and the file holds them. -/
theorem holds_of_first (f : RegFile) (n : BitVec 9) (l : List Byte) (hn : n.toNat ≤ 256)
    (h : f.first n.toNat = .ok l) : n = BitVec.ofNat 9 l.length ∧ f.Holds l := by
  have hl : l.length = n.toNat := by
    obtain ⟨hlen, -⟩ := (first_eq_ok _ _ _).1 h
    rwa [Nat.min_eq_left hn] at hlen
  rw [RegFile.Holds, hl, BitVec.ofNat_toNat, BitVec.setWidth_eq]
  exact ⟨rfl, h⟩

/-- The rows that the Interpolation Engine writes: at most one for each entry of `ZP`, one byte for each column. -/
theorem outputRows_shape (A : Arith) (xs ics zs ocs : List Byte) (columns rows : List (List Byte))
    (h : outputRows A xs ics zs ocs columns = .ok rows) :
    rows.length ≤ zs.length ∧ ∀ row ∈ rows, row.length = columns.length := by
  obtain ⟨hlen, hrow⟩ := (outputRows_eq_ok _ _ _ _ _ _ _).1 h
  refine ⟨by omega, fun row hmem => ?_⟩
  obtain ⟨i, hi, rfl⟩ := List.mem_iff_getElem.1 hmem
  have hbytes := (collect_eq_ok _ _).1 (hrow i hi (by omega) (by omega))
  simpa using (congrArg List.length hbytes).symm

/-- With final tables the Cross-Product Stage leaves valid cross products (41_cross_product.md R123, R124). -/
theorem crossProductStage_keeps_ok (s t : State) (hs : s.Inv) (h : crossProductStage s = .ok t) :
    ∃ k, t = s.withCtx k ∧ k.Ok s.params s.TRDY := by
  obtain ⟨n, m, xs, zs, mul, ht, hin, hon, hn0, hxs, hzs, hnodup, hmul, rfl⟩ := (crossProductStage_eq_ok s t).1 h
  have hk : s.ctx.Ok s.params true := ht ▸ hs.contexts _ (ctx_mem_contexts s)
  have hmul : gfMul = mul := Except.ok.inj ((mulOf_final s (hs.ready ht).1).symm.trans hmul)
  obtain ⟨rfl, hxp⟩ := holds_of_first _ n xs (hk.count_in n hin) hxs
  obtain ⟨rfl, hzp⟩ := holds_of_first _ m zs (hk.count_out m hon) hzs
  subst hmul
  have hne : xs ≠ [] := by rintro rfl; exact hn0 rfl
  exact ⟨_, rfl, ht ▸ ok_setCross s.params s.ctx _ _ ⟨xs, zs, hin, hon, hne, hxp, hzp, hnodup, rfl, rfl⟩ hk⟩

/-- The Interpolation Engine writes `OVM` inside its space (42_interpolation.md R147; 20_memory.md R50). -/
theorem interpolationStage_keeps_ok (s t : State) (hs : s.Inv) (h : interpolationStage s = .ok t) :
    ∃ k, t = s.withCtx k ∧ k.Ok s.params s.TRDY := by
  obtain ⟨n, m, len, columns, xs, zs, ics, ocs, A, rows, -, -, -, -, hln, hcols, -, hzs, -, -, -, hrows, rfl⟩ :=
    (interpolationStage_eq_ok s t).1 h
  have hk := hs.contexts _ (ctx_mem_contexts s)
  obtain ⟨hzlen, -⟩ := (first_eq_ok _ _ _).1 hzs
  obtain ⟨hclen, -⟩ := (columns_eq_ok _ _ _ _).1 hcols
  obtain ⟨hle, hrow⟩ := outputRows_shape _ _ _ _ _ _ _ hrows
  have hlen := hk.length len hln
  exact ⟨_, rfl, ok_setOVM _ _ _ rows (by omega) (fun row hmem => by rw [hrow row hmem]; omega) hk⟩

/-! #### The invariant through a command and a step -/

theorem inv_withCtx (s : State) (k : Context) (hs : s.Inv) (hk : k.Ok s.params s.TRDY) : (s.withCtx k).Inv where
  ready := hs.ready
  not_ready := hs.not_ready
  contexts c hc := (mem_contexts_withCtx s k c hc).elim (· ▸ hk) (hs.contexts c)

theorem inv_withTables (s : State) (hs : s.Inv) (ht : s.TRDY = false) : (s.withTables multTable invTable).Inv where
  ready _ := ⟨rfl, rfl⟩
  not_ready := by simp
  contexts k hk := ok_of_tables_ready s.params k (ht ▸ hs.contexts k hk)

theorem inv_of_serves (s s' : State) (port : Nat) (q : List (Nat × Word)) (hs : s.Inv) (h : s.Serves s' port q) :
    s'.Inv where
  ready := by
    rw [State.TablesFinal, h.trdy, h.mult, h.invt]
    exact hs.ready
  not_ready := by
    rw [h.trdy, h.mult, h.invt, h.params]
    exact hs.not_ready
  contexts := by
    rw [h.contexts, h.params, h.trdy]
    exact hs.contexts

theorem crossProductStage_keeps_inv (s t : State) (hs : s.Inv) (h : crossProductStage s = .ok t) : t.Inv := by
  obtain ⟨k, rfl, hk⟩ := crossProductStage_keeps_ok s t hs h
  exact inv_withCtx s k hs hk

theorem interpolationStage_keeps_inv (s t : State) (hs : s.Inv) (h : interpolationStage s = .ok t) : t.Inv := by
  obtain ⟨k, rfl, hk⟩ := interpolationStage_keeps_ok s t hs h
  exact inv_withCtx s k hs hk

theorem exec_keeps_inv (i : Instr) (s t : State) (hs : s.Inv) (h : exec i s = .next t) : t.Inv := by
  have hk := hs.contexts _ (ctx_mem_contexts s)
  rcases exec_eq_next i s t h with ⟨-, ⟨-, rfl⟩ | ⟨ht, rfl⟩⟩ | ⟨-, v, rfl⟩ | ⟨n, -, hn, rfl⟩ | ⟨n, -, hn, rfl⟩ |
    ⟨n, -, hn, rfl⟩ | ⟨j, x, -, rfl⟩ | ⟨j, z, -, rfl⟩ | ⟨j, v, u, -, hu, rfl⟩ | ⟨-, hx⟩ | ⟨-, hp⟩ | ⟨-, u, hx, hp⟩
  · exact hs
  · exact inv_withTables s hs ht
  · exact inv_withCtx s _ hs (ok_respond _ _ _ v hk)
  · exact inv_withCtx s _ hs (ok_setIN _ _ _ n hn hk)
  · exact inv_withCtx s _ hs (ok_setON _ _ _ n hn hk)
  · exact inv_withCtx s _ hs (ok_setLN _ _ _ n hn hk)
  · exact inv_withCtx s _ hs (ok_setXP _ _ _ j x hk)
  · exact inv_withCtx s _ hs (ok_setZP _ _ _ j z hk)
  · exact inv_withCtx s _ hs (ok_setIVM _ _ _ j v u hu hk)
  · exact crossProductStage_keeps_inv s t hs hx
  · exact interpolationStage_keeps_inv s t hs hp
  · exact interpolationStage_keeps_inv u t (crossProductStage_keeps_inv s u hs hx) hp

/-- Settles O42: a step is idle, or serves a port and then performs a command or records a fault; each keeps the
invariant. -/
theorem stepKeepsInvariant : Obligations.StepKeepsInvariant := by
  intro s t hs h
  rcases step_eq_next s t h with ⟨-, rfl⟩ | ⟨pre, port, w, post, s', -, -, -, hsel, hstep⟩
  · exact hs
  · have hs' : s'.Inv := inv_of_serves s s' port _ hs (serves_of_select s s' _ port hsel)
    rcases hstep with ⟨i, -, hexec⟩ | ⟨r, rfl, -⟩
    · exact exec_keeps_inv i s' t hs' hexec
    · exact inv_withCtx s' _ hs' (ok_recordFault _ _ _ r (hs'.contexts _ (ctx_mem_contexts s')))

/-! #### The Field Tables -/

theorem exec_keeps_tables (i : Instr) (s t : State) (hi : i ≠ .tinit) (h : exec i s = .next t) :
    t.TRDY = s.TRDY ∧ t.MULT = s.MULT ∧ t.INVT = s.INVT := by
  obtain ⟨k, rfl⟩ := exec_replaces_ctx i s t hi h
  exact ⟨rfl, rfl, rfl⟩

/-- TINIT has no effect when `TRDY = 1` (40_field_arithmetic.md R101). -/
theorem exec_tinit_of_ready (s : State) (ht : s.TRDY = true) : exec .tinit s = .next s := if_pos ht

theorem exec_keeps_ready_tables (i : Instr) (s t : State) (ht : s.TRDY = true) (h : exec i s = .next t) :
    t.TRDY = s.TRDY ∧ t.MULT = s.MULT ∧ t.INVT = s.INVT := by
  by_cases hi : i = .tinit
  · subst hi
    obtain rfl : s = t := Host.Outcome.next.inj ((exec_tinit_of_ready s ht).symm.trans h)
    exact ⟨rfl, rfl, rfl⟩
  · exact exec_keeps_tables i s t hi h

/-- Settles O43: TINIT is the only command that replaces more than the context served, and it does nothing once
`TRDY = 1`. -/
theorem tablesNeverChangeOnceReady : Obligations.TablesNeverChangeOnceReady := by
  refine ⟨fun s t h ht => ?_, exec_keeps_tables⟩
  rcases step_eq_next s t h with ⟨-, rfl⟩ | ⟨pre, port, w, post, s', -, -, -, hsel, hstep⟩
  · exact ⟨ht, rfl, rfl⟩
  · have hserves := serves_of_select s s' _ port hsel
    rw [← ht, ← hserves.trdy, ← hserves.mult, ← hserves.invt]
    rcases hstep with ⟨i, -, hexec⟩ | ⟨r, rfl, -⟩
    · exact exec_keeps_ready_tables i s' t (hserves.trdy.trans ht) hexec
    · exact ⟨rfl, rfl, rfl⟩

/-! #### Which command writes which location -/

/-- Settles O44: each of the cases of `exec_eq_next` changes only the locations that its command is listed for. -/
theorem onlyListedCommandsWrite : Obligations.OnlyListedCommandsWrite := by
  intro i s t h
  rcases exec_eq_next i s t h with ⟨rfl, ⟨-, rfl⟩ | ⟨-, rfl⟩⟩ | ⟨-, v, rfl⟩ | ⟨n, rfl, -, rfl⟩ | ⟨n, rfl, -, rfl⟩ |
    ⟨n, rfl, -, rfl⟩ | ⟨j, x, rfl, rfl⟩ | ⟨j, z, rfl, rfl⟩ | ⟨j, v, u, rfl, -, rfl⟩ | ⟨rfl, hx⟩ | ⟨rfl, hp⟩ |
    ⟨rfl, u, hx, hp⟩
  -- TINIT and the responding commands write none of these locations
  iterate 3 simp +contextual
  -- SETIN, SETON, SETLN, WRXP, WRZP, WRIV
  · simp
  · simp
  · simp +contextual
  · simp
  · simp
  · simp +contextual
  -- XPROD, INTERP, TRANSFORM
  · obtain ⟨ics, ocs, rfl⟩ := crossProductStage_replaces_cross s t hx
    simp
  · obtain ⟨rows, rfl⟩ := interpolationStage_replaces_OVM s t hp
    simp +contextual
  · obtain ⟨ics, ocs, rows, rfl⟩ := both_stages_replace_cross_and_OVM s u t hx hp
    simp

/-! #### Reset -/

theorem mem_contexts_resetWith (p : Params) (more : Nat) (k : Context) (h : k ∈ (State.resetWith p more).contexts) :
    k = Context.reset := by
  simp only [State.contexts, State.resetWith, List.nil_append, List.mem_cons, List.mem_replicate] at h
  exact h.elim id And.right

/-- Settles O40: every context is the one of `Context.reset`, whose files and memories hold nothing. -/
theorem resetValues : Obligations.ResetValues := by
  intro p more
  refine ⟨fun hp => ?_, fun hp => ?_, ?_, fun k hk => ?_⟩
  · simp [State.resetWith, hp]
  · simp [State.resetWith, State.TablesFinal, hp]
  · simp [State.contexts, State.resetWith]
  · obtain rfl := mem_contexts_resetWith p more k hk
    refine ⟨rfl, rfl, rfl, rfl, fun j => ?_, fun _ _ => ⟨rfl, rfl⟩⟩
    simp [Context.reset]

/-- A context after reset is legal, whatever the parameters and the tables. -/
theorem ok_reset (p : Params) (b : Bool) : Context.reset.Ok p b := by
  obtain ⟨hiwf, howf, hispace, hospace⟩ := resetWith_memories p 0 Context.reset (ctx_mem_contexts _)
  exact {
    count_in := by rintro n ⟨⟩
    count_out := by rintro n ⟨⟩
    length := by rintro n ⟨⟩
    ivm_wf := hiwf
    ivm_space := hispace
    ovm_wf := howf
    ovm_space := hospace
    cross := by rintro ⟨⟩ }

/-- Settles O41. -/
theorem invariantAtReset : Obligations.InvariantAtReset := by
  intro p more
  refine ⟨fun ht => ?_, fun ht => ?_, fun k hk => ?_⟩
  · cases hp : p.tableInit <;> simp_all [State.resetWith, State.TablesFinal]
  · cases hp : p.tableInit <;> simp_all [State.resetWith]
  · obtain rfl := mem_contexts_resetWith p more k hk
    exact ok_reset _ _

end Sys2Proof.Proofs

/-! ### Proofs of the memory family: the second of two writes to one location decides

The rule for each updated structure first (value memory, register file, context, machine), then what the three commands
answer, then the settled obligation. -/

namespace Sys2Proof.Proofs

open Sys2Proof.Machine Sys2Proof.Laws

/-! #### Two writes to one location -/

/-- The later byte replaces the earlier, in a canonical memory or not (20_memory.md R50). -/
@[simp] theorem putKey_putKey_same (m : Memory) (k : Nat) (v w : Byte) :
    (m.putKey k v).putKey k w = m.putKey k w := by
  induction m with
  | nil => simp [Memory.putKey]
  | cons c m ih =>
    obtain ⟨k', b⟩ := c
    by_cases hlt : k < k'
    · simp [Memory.putKey, hlt]
    · by_cases heq : k = k'
      · simp [Memory.putKey, heq]
      · simp [Memory.putKey, hlt, heq, ih]

@[simp] theorem write_write_same (m : Memory) (r t : Nat) (v w : Byte) :
    (m.write r t v).write r t w = m.write r t w :=
  putKey_putKey_same m (memKey r t) v w

@[simp] theorem regFile_write_write_same (f : RegFile) (j : Fin 256) (v w : Byte) :
    (f.write j v).write j w = f.write j w := by
  simp [RegFile.write]

@[simp] theorem setXP_setXP_same (k : Context) (j : Fin 256) (x y : Byte) :
    (k.setXP j x).setXP j y = k.setXP j y := by
  simp [Context.setXP]

@[simp] theorem setZP_setZP_same (k : Context) (i : Fin 256) (z y : Byte) :
    (k.setZP i z).setZP i y = k.setZP i y := by
  simp [Context.setZP]

@[simp] theorem setIVM_setIVM_same (k : Context) (j t : Nat) (v w : Byte) :
    (k.setIVM j t v).setIVM j t w = k.setIVM j t w := by
  simp [Context.setIVM]

@[simp] theorem clearXV_clearXV (k : Context) : k.clearXV.clearXV = k.clearXV := rfl

@[simp] theorem clearXV_setXP (k : Context) (j : Fin 256) (x : Byte) :
    k.clearXV.setXP j x = (k.setXP j x).clearXV := rfl

@[simp] theorem clearXV_setZP (k : Context) (i : Fin 256) (z : Byte) :
    k.clearXV.setZP i z = (k.setZP i z).clearXV := rfl

@[simp] theorem withCtx_withCtx (s : State) (k k' : Context) : (s.withCtx k).withCtx k' = s.withCtx k' := rfl

/-! #### What the three commands answer -/

theorem exec_wrxp (j : Fin 256) (x : Byte) (s : State) :
    exec (.wrxp j x) s = .next (s.withCtx (s.ctx.setXP j x).clearXV) := rfl

theorem exec_wrzp (i : Fin 256) (z : Byte) (s : State) :
    exec (.wrzp i z) s = .next (s.withCtx (s.ctx.setZP i z).clearXV) := rfl

theorem exec_wriv_eq_next (j : Fin 256) (v : Byte) (t : Nat) (s u : State) :
    exec (.wriv j v t) s = .next u ↔ t < s.params.lnMax.val ∧ u = s.withCtx (s.ctx.setIVM j t v) := by
  have hexec : exec (.wriv j v t) s = execWriv j v t s := rfl
  simp only [hexec, execWriv, finish_eq_next, bind_eq_ok, offsetOperand_eq_ok]
  constructor
  · rintro ⟨_, ⟨ht, rfl⟩, ⟨⟩⟩
    exact ⟨ht, rfl⟩
  · rintro ⟨ht, rfl⟩
    exact ⟨t, ⟨ht, rfl⟩, rfl⟩

/-- Settles O23: the second write replaces what the first wrote by the same byte; for WRIV the first leaves `LN_MAX`, so
the offset is in range again. -/
theorem writesAreIdempotent : Obligations.WritesAreIdempotent := by
  refine ⟨fun j v t s u h => ?_, fun j x s u h => ?_, fun i z s u h => ?_⟩
  · obtain ⟨ht, rfl⟩ := (exec_wriv_eq_next j v t s u).1 h
    rw [exec_wriv_eq_next]
    exact ⟨ht, by simp⟩
  · obtain rfl : s.withCtx (s.ctx.setXP j x).clearXV = u := by simpa [exec_wrxp] using h
    simp [exec_wrxp]
  · obtain rfl : s.withCtx (s.ctx.setZP i z).clearXV = u := by simpa [exec_wrzp] using h
    simp [exec_wrzp]

end Sys2Proof.Proofs

/-! ### Proofs of the encoding family: the decoder and the opcode table, the word of a command, one step

What the decoder accepts, row by row, comes first: it is what the round trips, the masks of spec/opcode_table.json and the
reserved words have in common. Then the step that takes a word, and the stop of one context. -/

namespace Sys2Proof.Proofs

open Sys2Proof.Machine Sys2Proof.Laws

/-! #### What the decoder accepts -/

/-- The fields of a word make a command of the row (30_encoding.md R76). -/
structure Accepts (o : OpcodeRow) (f : Fields) : Prop where
  opcode : o.op = f.op
  reserved : f.z = 0
  unused : o.unusedZero f = true

theorem accepts_iff (o : OpcodeRow) (f : Fields) : Accepts o f ↔ o.op = f.op ∧ f.z = 0 ∧ o.unusedZero f = true :=
  ⟨fun ⟨hop, hz, hu⟩ => ⟨hop, hz, hu⟩, fun ⟨hop, hz, hu⟩ => ⟨hop, hz, hu⟩⟩

/-- An opcode names one row (30_encoding.md R75). -/
theorem opcodeMap_op_inj {o o' : OpcodeRow} (ho : o ∈ opcodeMap) (ho' : o' ∈ opcodeMap) (h : o.op = o'.op) : o = o' :=
  List.inj_on_of_nodup_map (by decide : (opcodeMap.map OpcodeRow.op).Nodup) ho ho' h

theorem find_opcode_eq_some (op : Byte) (o : OpcodeRow) :
    opcodeMap.find? (fun r => r.op == op) = some o ↔ o ∈ opcodeMap ∧ o.op = op := by
  constructor
  · intro h
    exact ⟨List.mem_of_find?_eq_some h, by simpa using List.find?_some h⟩
  · rintro ⟨ho, rfl⟩
    cases hfind : opcodeMap.find? (fun r => r.op == o.op) with
    | none => exact absurd (List.find?_eq_none.1 hfind o ho) (by simp)
    | some o' =>
      have hop : o'.op = o.op := by simpa using List.find?_some hfind
      rw [opcodeMap_op_inj (List.mem_of_find?_eq_some hfind) ho hop]

/-- A word decodes exactly when a row accepts its fields, and then to that row's command. -/
theorem decode_eq_ok (w : Word) (i : Instr) :
    decode w = .ok i ↔ ∃ o ∈ opcodeMap, Accepts o (Fields.ofWord w) ∧ o.command (Fields.ofWord w) = i := by
  simp only [decode]
  constructor
  · intro h
    split at h
    · cases h
    · next o hfind =>
      obtain ⟨ho, hop⟩ := (find_opcode_eq_some _ o).1 hfind
      split_ifs at h with hz hu
      exact ⟨o, ho, ⟨hop, not_not.1 hz, hu⟩, Except.ok.inj h⟩
  · rintro ⟨o, ho, ⟨hop, hz, hu⟩, rfl⟩
    simp [(find_opcode_eq_some _ o).2 ⟨ho, hop⟩, hz, hu]

/-! #### The word of a command -/

/-- The number of the field `T` of a well-formed command (30_encoding.md R71). -/
theorem toNat_ofNat_of_fitsT (n : Nat) (h : fitsT n = true) : (BitVec.ofNat 32 n).toNat = n := by
  rw [BitVec.toNat_ofNat, Nat.mod_eq_of_lt (of_decide_eq_true h)]

/-- The fields of a well-formed command are those of one row, which reads the operands back (30_encoding.md R75). -/
theorem fields_accepted (i : Instr) (hi : i.wf = true) :
    ∃ o ∈ opcodeMap, Accepts o i.fields ∧ o.command i.fields = i := by
  cases i with
  | setin n | seton n | setln n | wriv _ _ n | rdov _ n =>
    simp [opcodeMap, accepts_iff, OpcodeRow.unusedZero, Instr.fields, toNat_ofNat_of_fitsT n hi]
  | _ => simp [opcodeMap, accepts_iff, OpcodeRow.unusedZero, Instr.fields]

/-- The fields that a row reads: its opcode and those that carry an operand, every other zero (30_encoding.md R75). -/
def usedFields (o : OpcodeRow) (f : Fields) : Fields :=
  ⟨o.op, if o.usesA then f.a else 0, if o.usesB then f.b else 0, 0, if o.usesT then f.t else 0⟩

theorem command_wf : ∀ o ∈ opcodeMap, ∀ f, (o.command f).wf = true := by
  have ht (f : Fields) : fitsT f.t.toNat = true := decide_eq_true f.t.isLt
  simp [opcodeMap, Instr.wf, ht]

/-- A row puts into its command exactly the fields it uses. -/
theorem command_fields : ∀ o ∈ opcodeMap, ∀ f, (o.command f).fields = usedFields o f := by
  simp [opcodeMap, Instr.fields, usedFields]

theorem ite_zero_eq_self {n : Nat} (uses : Bool) (x : BitVec n) (h : (uses || x == 0) = true) :
    (if uses then x else 0) = x := by
  cases uses with
  | true => rfl
  | false => exact (eq_of_beq h).symm

/-- A row that accepts some fields uses all that are not zero (30_encoding.md R76). -/
theorem usedFields_of_accepts (o : OpcodeRow) (f : Fields) (h : Accepts o f) : usedFields o f = f := by
  obtain ⟨hop, hz, hu⟩ := h
  simp only [OpcodeRow.unusedZero, Bool.and_eq_true] at hu
  obtain ⟨⟨ha, hb⟩, ht⟩ := hu
  rw [usedFields, ite_zero_eq_self _ _ ha, ite_zero_eq_self _ _ hb, ite_zero_eq_self _ _ ht, hop, ← hz]

/-- Settles O1: the row of a well-formed command accepts the command's own fields. -/
theorem decodeOfEncode : Obligations.DecodeOfEncode := by
  intro i hi
  rw [decode_eq_ok, encode, ofWord_toWord]
  exact fields_accepted i hi

/-- Settles O2: the row that accepts a word puts every field of it into the command. -/
theorem encodeOfDecode : Obligations.EncodeOfDecode := by
  intro w i h
  obtain ⟨o, ho, hacc, rfl⟩ := (decode_eq_ok w i).1 h
  exact ⟨command_wf o ho _, by rw [encode, command_fields o ho, usedFields_of_accepts o _ hacc, toWord_ofWord]⟩

/-! #### The opcode table as masks -/

/-- The bits that a row fixes: the opcode, `Z`, and every field that carries no operand (30_encoding.md R76). -/
def rowMask (o : OpcodeRow) : Fields :=
  ⟨BitVec.allOnes 8, if o.usesA then 0 else BitVec.allOnes 8, if o.usesB then 0 else BitVec.allOnes 8,
    BitVec.allOnes 8, if o.usesT then 0 else BitVec.allOnes 32⟩

/-- The row of spec/opcode_table.json that a row of the opcode map stands for (30_encoding.md R75, R76). -/
def tableRowOf (o : OpcodeRow) : TableRow :=
  ⟨(o.command ⟨0, 0, 0, 0, 0⟩).mnemonic, (rowMask o).toWord, (Fields.mk o.op 0 0 0 0).toWord⟩

/-- spec/opcode_table.json and the opcode map of R75 are one table. -/
theorem tableRows_eq_map : tableRows = opcodeMap.map tableRowOf := by decide

theorem mem_tableRows (r : TableRow) : r ∈ tableRows ↔ ∃ o ∈ opcodeMap, tableRowOf o = r := by
  rw [tableRows_eq_map, List.mem_map]

/-- The mnemonic of a row's command does not depend on the operands. -/
theorem command_mnemonic : ∀ o ∈ opcodeMap, ∀ f, (o.command f).mnemonic = (tableRowOf o).mnemonic := by
  simp [opcodeMap, tableRowOf, Instr.mnemonic]

/-- A mnemonic names one row (30_encoding.md R75). -/
theorem opcodeMap_mnemonic_inj {o o' : OpcodeRow} (ho : o ∈ opcodeMap) (ho' : o' ∈ opcodeMap)
    (h : (tableRowOf o).mnemonic = (tableRowOf o').mnemonic) : o = o' :=
  List.inj_on_of_nodup_map (by decide : (opcodeMap.map fun o => (tableRowOf o).mnemonic).Nodup) ho ho' h

theorem toWord_inj (f g : Fields) : f.toWord = g.toWord ↔ f = g :=
  (Function.LeftInverse.injective ofWord_toWord).eq_iff

/-- A field that carries an operand is free, any other must be zero. -/
theorem and_mask_eq_zero {n : Nat} (uses : Bool) (x : BitVec n) :
    x &&& (if uses then 0 else BitVec.allOnes n) = 0 ↔ (uses || x == 0) = true := by
  cases uses <;> simp

/-- Mask and match say what the decoder checks field by field (30_encoding.md R76). -/
theorem tableRowOf_selects (o : OpcodeRow) (w : Word) : (tableRowOf o).selects w ↔ Accepts o (Fields.ofWord w) := by
  have hmask : w &&& (rowMask o).toWord = (Fields.ofWord w).toWord &&& (rowMask o).toWord := by rw [toWord_ofWord]
  rw [TableRow.selects, tableRowOf, hmask, toWord_and, toWord_inj]
  simp only [rowMask, Fields.mk.injEq, BitVec.and_allOnes, and_mask_eq_zero]
  constructor
  · rintro ⟨hop, ha, hb, hz, ht⟩
    exact ⟨hop.symm, hz, by simp only [OpcodeRow.unusedZero, ha, hb, ht, Bool.and_self]⟩
  · rintro ⟨hop, hz, hu⟩
    simp only [OpcodeRow.unusedZero, Bool.and_eq_true] at hu
    obtain ⟨⟨ha, hb⟩, ht⟩ := hu
    exact ⟨hop.symm, ha, hb, hz, ht⟩

/-- A word decodes to a command exactly when it selects a row, the row of the command's mnemonic. -/
theorem selects_iff_decodes (o : OpcodeRow) (ho : o ∈ opcodeMap) (w : Word) :
    (tableRowOf o).selects w ↔ ∃ i, decode w = .ok i ∧ i.mnemonic = (tableRowOf o).mnemonic := by
  rw [tableRowOf_selects]
  constructor
  · intro hacc
    exact ⟨_, (decode_eq_ok w _).2 ⟨o, ho, hacc, rfl⟩, command_mnemonic o ho _⟩
  · rintro ⟨i, hdec, hname⟩
    obtain ⟨o', ho', hacc, rfl⟩ := (decode_eq_ok w i).1 hdec
    rw [command_mnemonic o' ho'] at hname
    rwa [← opcodeMap_mnemonic_inj ho' ho hname]

/-- Settles O3: the table's masks are those of the opcode map, whose rows differ in the opcode and in the mnemonic. -/
theorem decoderSelectsByMaskAndMatch : Obligations.DecoderSelectsByMaskAndMatch := by
  constructor
  · intro w r hr
    obtain ⟨o, ho, rfl⟩ := (mem_tableRows r).1 hr
    exact selects_iff_decodes o ho w
  · intro w r r' hr hr' hsel hsel'
    obtain ⟨o, ho, rfl⟩ := (mem_tableRows r).1 hr
    obtain ⟨o', ho', rfl⟩ := (mem_tableRows r').1 hr'
    have hop := ((tableRowOf_selects o w).1 hsel).opcode
    have hop' := ((tableRowOf_selects o' w).1 hsel').opcode
    rw [opcodeMap_op_inj ho ho' (hop.trans hop'.symm)]

/-- A word that selects no row of the table is reserved (30_encoding.md R77). -/
theorem decode_error_of_no_row (w : Word) (h : ∀ r ∈ tableRows, ¬ r.selects w) : ∃ e, decode w = .error e := by
  cases hdec : decode w with
  | error e => exact ⟨e, rfl⟩
  | ok i =>
    obtain ⟨o, ho, hacc, -⟩ := (decode_eq_ok w i).1 hdec
    exact absurd ((tableRowOf_selects o w).2 hacc) (h _ ((mem_tableRows _).2 ⟨o, ho, rfl⟩))

/-- Settles O4: the words are closed, and the decoder is evaluated on each. -/
theorem specWordsDecode : Obligations.SpecWordsDecode := by
  unfold Obligations.SpecWordsDecode
  decide

/-! #### The response of a command -/

/-- Settles O45: of the cases of `exec_eq_next` one is the response of a byte, and the others write no trace. -/
theorem responsesOfACommand : Obligations.ResponsesOfACommand := by
  intro i s t h
  rcases exec_eq_next i s t h with ⟨rfl, ⟨-, rfl⟩ | ⟨-, rfl⟩⟩ | ⟨hi, v, rfl⟩ | ⟨n, rfl, -, rfl⟩ | ⟨n, rfl, -, rfl⟩ |
    ⟨n, rfl, -, rfl⟩ | ⟨j, x, rfl, rfl⟩ | ⟨j, z, rfl, rfl⟩ | ⟨j, v, u, rfl, -, rfl⟩ | ⟨rfl, hx⟩ | ⟨rfl, hp⟩ |
    ⟨rfl, u, hx, hp⟩
  -- TINIT
  iterate 2 exact ⟨nofun, fun _ => rfl⟩
  -- the six responding commands
  · exact ⟨fun _ => ⟨v, rfl⟩, fun hno => absurd (hi.symm.trans hno) (by decide)⟩
  -- SETIN, SETON, SETLN, WRXP, WRZP, WRIV
  iterate 6 exact ⟨nofun, fun _ => rfl⟩
  -- XPROD, INTERP, TRANSFORM
  · obtain ⟨_, _, rfl⟩ := crossProductStage_replaces_cross s t hx
    exact ⟨nofun, fun _ => rfl⟩
  · obtain ⟨_, rfl⟩ := interpolationStage_replaces_OVM s t hp
    exact ⟨nofun, fun _ => rfl⟩
  · obtain ⟨_, _, _, rfl⟩ := both_stages_replace_cross_and_OVM s u t hx hp
    exact ⟨nofun, fun _ => rfl⟩

/-! #### The word that a step takes -/

theorem isFaulted_of_stopped (s : State) (port : Nat) (h : s.Stopped port) : s.isFaulted port = true := by
  obtain ⟨k, r, hk, hr⟩ := h
  rw [isFaulted_eq s port k hk, hr, Option.isSome_some]

theorem isFaulted_of_running (s : State) (port : Nat) (h : s.Running port) : s.isFaulted port = false := by
  obtain ⟨k, hk, hr⟩ := h
  rw [isFaulted_eq s port k hk, hr, Option.isSome_none]

/-- The first word of a context that goes on is the one presented, and its context is served (30_encoding.md R72). -/
theorem present_first_running (s : State) (pre post : List (Nat × Word)) (port : Nat) (w : Word)
    (hq : s.issue = pre ++ (port, w) :: post) (hpre : ∀ c ∈ pre, s.Stopped c.1) (hport : s.Running port) :
    ∃ s', s.present = .command w s' ∧ s.Serves s' port (pre ++ post) := by
  have htake : takeIssued s.isFaulted s.issue = some ((port, w), pre ++ post) :=
    (takeIssued_eq_some _ _ _ _).2
      ⟨pre, post, hq, rfl, fun c hc => isFaulted_of_stopped s c.1 (hpre c hc), isFaulted_of_running s port hport⟩
  have hlt : port < s.contexts.length := by
    obtain ⟨k, hk, -⟩ := hport
    exact (List.getElem?_eq_some_iff.1 hk).1
  obtain ⟨s', hsel⟩ := select_isSome { s with issue := pre ++ post } port hlt
  exact ⟨s', by simp only [State.present, htake, hsel], serves_of_select s s' _ port hsel⟩

theorem step_of_decode_ok (s s' : State) (w : Word) (i : Instr) (hp : s.present = .command w s')
    (hd : decode w = .ok i) : step s = conclude s' (exec i s') := by
  simp only [step, hp, hd]

theorem step_of_decode_error (s s' : State) (w : Word) (e : Rejection) (hp : s.present = .command w s')
    (hd : decode w = .error e) : step s = s'.stopContext .illegalCmd := by
  simp only [step, hp, hd]

/-! #### The stop of one context -/

theorem running_iff_of_serves (s s' : State) (port q : Nat) (rest : List (Nat × Word)) (h : s.Serves s' port rest) :
    s'.Running q ↔ s.Running q := by
  rw [State.Running, State.Running, h.contexts]

theorem exists_running_iff (s : State) : (∃ q, s.Running q) ↔ ∃ k ∈ s.contexts, k.fault = none := by
  constructor
  · rintro ⟨q, k, hk, hr⟩
    exact ⟨k, List.mem_of_getElem? hk, hr⟩
  · rintro ⟨k, hk, hr⟩
    obtain ⟨q, hq⟩ := List.mem_iff_getElem?.1 hk
    exact ⟨q, k, hq, hr⟩

/-- The context served stops, and whether any other goes on stays as it was (60_exceptions.md R195). -/
theorem running_recordFault (s : State) (r : Fault) (q : Nat) :
    (s.withCtx (s.ctx.recordFault r)).Running q ↔ q ≠ s.before.length ∧ s.Running q := by
  by_cases hq : q = s.before.length
  · subst hq
    simp [State.Running, State.contexts, Context.recordFault]
  · have hsame : (s.withCtx (s.ctx.recordFault r)).contexts[q]? = s.contexts[q]? := by
      simp only [State.contexts, state_withCtx_before, state_withCtx_ctx, state_withCtx_after]
      rcases Nat.lt_or_gt_of_ne hq with hlt | hgt
      · rw [List.getElem?_append_left hlt, List.getElem?_append_left hlt]
      · obtain ⟨d, rfl⟩ := Nat.exists_eq_add_of_lt hgt
        simp [List.getElem?_append_right, Nat.add_assoc]
    simp [State.Running, hsame, hq]

theorem stopContext_of_other_running (s : State) (r : Fault) (h : ∃ q, q ≠ s.before.length ∧ s.Running q) :
    s.stopContext r = .next (s.withCtx (s.ctx.recordFault r)) := by
  rcases proceed_cases (s.withCtx (s.ctx.recordFault r)) with ⟨hnext, -⟩ | ⟨_, -, hall, -⟩
  · exact hnext
  · obtain ⟨q, hq⟩ := h
    obtain ⟨k, hk, hrun⟩ := (exists_running_iff _).1 ⟨q, (running_recordFault s r q).2 hq⟩
    exact absurd hrun (hall k hk)

theorem stopContext_of_none_running (s : State) (r : Fault) (h : ∀ q, q ≠ s.before.length → ¬ s.Running q) :
    s.stopContext r = .fault r := by
  rcases proceed_cases (s.withCtx (s.ctx.recordFault r)) with ⟨-, hrun⟩ | ⟨_, hr, -, hfault⟩
  · obtain ⟨q, hq⟩ := (exists_running_iff _).2 hrun
    obtain ⟨hne, hrunning⟩ := (running_recordFault s r q).1 hq
    exact absurd hrunning (h q hne)
  · obtain rfl := Option.some.inj hr
    exact hfault

theorem stopsOnly_of_step (s s' : State) (port : Nat) (rest : List (Nat × Word)) (r : Fault)
    (hserves : s.Serves s' port rest) (hstep : step s = s'.stopContext r) : StopsOnly s s' port r := by
  obtain rfl := hserves.place
  have hrunning := fun q => running_iff_of_serves s s' _ q rest hserves
  simp only [StopsOnly, hstep, ← hrunning]
  exact ⟨stopContext_of_other_running s' r, stopContext_of_none_running s' r⟩

/-- Settles O5: the word is the one presented, and `conclude` passes the command's next state on and stops the context
on a fault. -/
theorem stepPerformsTheDecodedCommand : Obligations.StepPerformsTheDecodedCommand := by
  intro s pre post port w i hq hpre hport hdec
  obtain ⟨s', hp, hserves⟩ := present_first_running s pre post port w hq hpre hport
  have hstep := step_of_decode_ok s s' w i hp hdec
  refine ⟨s', hserves, fun t hexec => ?_, fun r hexec => stopsOnly_of_step s s' port _ r hserves ?_⟩
  · rw [hstep, hexec, conclude]
  · rw [hstep, hexec, conclude]

/-- Settles O6: the decoder rejects a word that selects no row, and the step then stops the context of the word. -/
theorem reservedWordFaults : Obligations.ReservedWordFaults := by
  intro s pre post port w hq hpre hport hrows
  obtain ⟨s', hp, hserves⟩ := present_first_running s pre post port w hq hpre hport
  obtain ⟨e, hdec⟩ := decode_error_of_no_row w hrows
  exact ⟨s', hserves, stopsOnly_of_step s s' port _ _ hserves (step_of_decode_error s s' w e hp hdec)⟩

end Sys2Proof.Proofs

/-! ### Proofs of the field family: the laws of the multiplication, its closed subsets, the four field commands

The laws follow from linearity and a check on the powers of two, where the table of 40_field_arithmetic.md R98 decides.
Then what a product of 1 says of the inverse, what a command that needs the tables answers, and the settled obligations. -/

namespace Sys2Proof.Proofs

open Sys2Proof.Machine Sys2Proof.Laws

/-! #### The laws of the field (R95) -/

theorem mulByBits_powers_assoc : ∀ r < 8, ∀ c < 8, ∀ d < 8,
    mulByBits (mulByBits (2 ^ r) (2 ^ c)) (2 ^ d) = mulByBits (2 ^ r) (mulByBits (2 ^ c) (2 ^ d)) := by
  decide +kernel

/-- Both sides are linear in each factor, so the powers of two decide, one factor after the other. -/
theorem mulByBits_assoc (a b c : Nat) (ha : a < 256) (hb : b < 256) (hc : c < 256) :
    mulByBits (mulByBits a b) c = mulByBits a (mulByBits b c) := by
  refine eq_of_eq_on_powers (fun x => mulByBits (mulByBits x b) c) (fun x => mulByBits x (mulByBits b c))
    (fun x y => by simp only [mulByBits_xor_left]) (fun x y => mulByBits_xor_left x y _) (fun r hr => ?_) 8 a ha le_rfl
  refine eq_of_eq_on_powers (fun y => mulByBits (mulByBits (2 ^ r) y) c) (fun y => mulByBits (2 ^ r) (mulByBits y c))
    (fun x y => by simp only [mulByBits_xor_left, mulByBits_xor_right])
    (fun x y => by simp only [mulByBits_xor_left, mulByBits_xor_right]) (fun s hs => ?_) 8 b hb le_rfl
  exact eq_of_eq_on_powers (fun z => mulByBits (mulByBits (2 ^ r) (2 ^ s)) z)
    (fun z => mulByBits (2 ^ r) (mulByBits (2 ^ s) z))
    (fun x y => mulByBits_xor_right _ x y) (fun x y => by simp only [mulByBits_xor_right])
    (fun t ht => mulByBits_powers_assoc r hr s hs t ht) 8 c hc le_rfl

theorem mulByBits_one_left (b : Nat) (hb : b < 256) : mulByBits 1 b = b :=
  eq_of_eq_on_powers (mulByBits 1) id (mulByBits_xor_right 1) (fun _ _ => rfl) (by decide) 8 b hb le_rfl

theorem gfMul_comm (a b : Byte) : gfMul a b = gfMul b a :=
  BitVec.eq_of_toNat_eq (by simp only [gfMul_toNat, mulByBits_comm a.toNat b.toNat a.isLt b.isLt])

theorem gfMul_assoc (a b c : Byte) : gfMul (gfMul a b) c = gfMul a (gfMul b c) :=
  BitVec.eq_of_toNat_eq (by simp only [gfMul_toNat, mulByBits_assoc a.toNat b.toNat c.toNat a.isLt b.isLt c.isLt])

theorem gfMul_zero_left (b : Byte) : gfMul 0 b = 0 :=
  BitVec.eq_of_toNat_eq ((gfMul_toNat 0 b).trans (mulByBits_zero_left b.toNat))

theorem gfMul_zero_right (a : Byte) : gfMul a 0 = 0 := by rw [gfMul_comm, gfMul_zero_left]

theorem gfMul_one_left (b : Byte) : gfMul 1 b = b :=
  BitVec.eq_of_toNat_eq ((gfMul_toNat 1 b).trans (mulByBits_one_left b.toNat b.isLt))

theorem gfMul_one_right (a : Byte) : gfMul a 1 = a := by rw [gfMul_comm, gfMul_one_left]

/-! #### The inverse (R94) -/

/-- A byte has at most one inverse: `b = b * (a * c) = (a * b) * c = c`. -/
theorem eq_of_gfMul_eq_one (a b c : Byte) (hb : gfMul a b = 1) (hc : gfMul a c = 1) : b = c := by
  calc b = gfMul b (gfMul a c) := by rw [hc, gfMul_one_right]
    _ = gfMul (gfMul a b) c := by rw [← gfMul_assoc, gfMul_comm b a]
    _ = c := by rw [hb, gfMul_one_left]

theorem ne_zero_of_gfMul_eq_one (a b : Byte) (h : gfMul a b = 1) : a ≠ 0 ∧ b ≠ 0 := by
  have hne : (0 : Byte) ≠ 1 := by decide
  constructor
  · rintro rfl
    exact hne ((gfMul_zero_left b).symm.trans h)
  · rintro rfl
    exact hne ((gfMul_zero_right a).symm.trans h)

/-- `inv(a)` is the one byte with product 1 (40_field_arithmetic.md R94). -/
theorem gfInv_eq_some (a i : Byte) : gfInv a = some i ↔ gfMul a i = 1 := by
  rcases gfInv_spec a with ⟨rfl, hnone⟩ | ⟨-, j, hj, hmul⟩
  · rw [hnone, gfMul_zero_left]
    simp
  · rw [hj, Option.some.injEq]
    constructor
    · rintro rfl
      exact hmul
    · exact eq_of_gfMul_eq_one a j i hmul

theorem exists_gfInv (a : Byte) (ha : a ≠ 0) : ∃ i, gfInv a = some i ∧ gfMul a i = 1 := by
  rcases gfInv_spec a with ⟨hzero, -⟩ | ⟨-, hinv⟩
  · exact absurd hzero ha
  · exact hinv

/-- A product is zero only if a factor is (40_field_arithmetic.md R97): a nonzero factor can be divided out. -/
theorem gfMul_eq_zero (a b : Byte) (h : gfMul a b = 0) : a = 0 ∨ b = 0 := by
  by_cases ha : a = 0
  · exact .inl ha
  · refine .inr ?_
    obtain ⟨i, -, hi⟩ := exists_gfInv a ha
    calc b = gfMul (gfMul i a) b := by rw [gfMul_comm i a, hi, gfMul_one_left]
      _ = 0 := by rw [gfMul_assoc, h, gfMul_zero_right]

/-- Settles O9: `xor` is associative and cancels itself. -/
theorem additionIsXor : Obligations.AdditionIsXor := by
  intro a b
  exact ⟨rfl, BitVec.xor_self, by rw [gfAdd, gfAdd, BitVec.xor_assoc, BitVec.xor_self, BitVec.xor_zero]⟩

/-- Settles O10: the laws of `xor`, and those of the multiplication one by one. -/
theorem fieldLaws : Obligations.FieldLaws := by
  exact ⟨fun a b => ⟨BitVec.xor_comm a b, gfMul_comm a b⟩,
    fun a b c => ⟨BitVec.xor_assoc a b c, gfMul_assoc a b c, gfMul_xor_right a b c⟩, exists_gfInv⟩

/-! #### The closed subsets (R97) -/

theorem sumAtBits_zero (l : List Nat) : sumAtBits l 0 = 0 := by
  simpa using sumAtBits_xor l 0 0

/-- A number below `2 ^ k` reads only the first `k` values. -/
theorem sumAtBits_lt_of_take (l : List Nat) (k m v : Nat) (h : ∀ p ∈ l.take k, p < 2 ^ m) (hv : v < 2 ^ k) :
    sumAtBits l v < 2 ^ m := by
  induction l generalizing k v with
  | nil => simp [sumAtBits]
  | cons p ps ih =>
    cases k with
    | zero =>
      obtain rfl : v = 0 := by simpa using hv
      simp [sumAtBits_zero]
    | succ k =>
      rw [List.take_succ_cons, List.forall_mem_cons] at h
      obtain ⟨hp, hps⟩ := h
      refine Nat.xor_lt_two_pow ?_ (ih k (v / 2) hps (by rw [pow_succ] at hv; omega))
      rcases Nat.mod_two_eq_zero_or_one v with hbit | hbit <;> simp [hbit, hp]

/-- The upper left corners of the table of R98 stay below their own size. -/
theorem powerProducts_corner : ∀ k ∈ [1, 2, 4], ∀ row ∈ powerProducts.take k, ∀ p ∈ row.take k, p < 2 ^ k := by
  decide

theorem mulByBits_closed (k : Nat) (hk : k ∈ [1, 2, 4]) (a b : Nat) (ha : a < 2 ^ k) (hb : b < 2 ^ k) :
    mulByBits a b < 2 ^ k := by
  refine sumAtBits_lt_of_take _ k k a ?_ ha
  rw [← List.map_take, List.forall_mem_map]
  exact fun row hrow => sumAtBits_lt_of_take row k k b (powerProducts_corner k hk row hrow) hb

/-- The table of R99 maps each closed subset into itself. -/
theorem inverses_corner : ∀ k ∈ [1, 2, 4], ∀ i ∈ inverses.take (2 ^ k - 1), i.toNat < 2 ^ k := by
  decide

theorem gfInv_closed (k : Nat) (hk : k ∈ [1, 2, 4]) (a i : Byte) (ha : a.toNat < 2 ^ k) (h : gfInv a = some i) :
    i.toNat < 2 ^ k := by
  obtain ⟨hne, -⟩ := ne_zero_of_gfMul_eq_one a i ((gfInv_eq_some a i).1 h)
  have hpos : a.toNat ≠ 0 := fun h0 => hne (BitVec.eq_of_toNat_eq h0)
  rw [gfInv, if_neg hne] at h
  refine inverses_corner k hk i (List.mem_of_getElem? (i := a.toNat - 1) ?_)
  rw [List.getElem?_take_of_lt (by omega), h]

/-- Settles O11: bytes below 2, 4 and 16 have only their first 1, 2 and 4 bits, which read the corners of the two
tables. -/
theorem consequencesOfTheConstruction : Obligations.ConsequencesOfTheConstruction := by
  refine ⟨fun b => ⟨gfMul_zero_left b, gfMul_zero_right b, gfMul_one_left b, gfMul_one_right b⟩,
    gfMul_eq_zero, fun n hn a b ha hb => ?_⟩
  have hpowers : [2, 4, 16] = [1, 2, 4].map (2 ^ ·) := rfl
  rw [hpowers, List.mem_map] at hn
  obtain ⟨k, hk, rfl⟩ := hn
  refine ⟨?_, ?_, fun i => gfInv_closed k hk a i ha⟩
  · rw [gfAdd, BitVec.toNat_xor]
    exact Nat.xor_lt_two_pow ha hb
  · rw [gfMul_toNat]
    exact mulByBits_closed k hk _ _ ha hb

/-! #### The contents of the Field Tables (R101) -/

/-- R92's product is 1 exactly when the model's is. -/
theorem mexMul_eq_one (a b : Byte) : mexMul a.toNat b.toNat = 1 ↔ gfMul a b = 1 := by
  rw [mexMul_eq_gfMul]
  exact BitVec.toNat_inj (y := (1 : Byte))

/-- One read of the final `INVT` answers the one byte with product 1 (40_field_arithmetic.md R94). -/
theorem invTable_inv_eq_ok (a v : Byte) : invTable.inv a = .ok v ↔ gfMul a v = 1 := by
  simp only [← gfInv_eq_some, invTable_inv, fieldArith]
  cases gfInv a <;> simp

/-- Entry `k` stands for the index `k + 1`, since `INVT` has no entry 0 (10_state.md R22). -/
theorem invTable_getElem (k : Nat) (hk : k < 255) (b : Byte) : mexMul (k + 1) b.toNat = 1 ↔ b = invTable[k] := by
  have ha : (BitVec.ofNatLT (k + 1) (by omega) : Byte).toNat = k + 1 := rfl
  have hentry : invTable.inv (BitVec.ofNatLT (k + 1) (by omega)) = .ok invTable[k] := rfl
  have hone := (invTable_inv_eq_ok _ _).1 hentry
  rw [← ha, mexMul_eq_one]
  constructor
  · exact fun hb => eq_of_gfMul_eq_one _ _ _ hb hone
  · rintro rfl
    exact hone

theorem exec_tinit_of_not_ready (s : State) (ht : s.TRDY = false) :
    exec .tinit s = .next (s.withTables multTable invTable) :=
  if_neg (by simp [ht])

/-- Settles O12: the tables TINIT writes are the final ones, read entry by entry as R92 and R94 construct them. -/
theorem tinitBuildsTheTables : Obligations.TinitBuildsTheTables := by
  refine ⟨by decide, exec_tinit_of_ready, fun s ht => ⟨multTable, invTable, exec_tinit_of_not_ready s ht, ?_, ?_⟩⟩
  · intro a b
    rw [mexMul_eq_gfMul, ← multTable_mul]
    rfl
  · intro k hk
    exact ⟨(invTable_getElem k hk _).2 rfl, fun b => (invTable_getElem k hk b).1⟩

/-! #### GFADD, GFMUL, GFINV (R102 to R104) -/

/-- The fields of the word of a command (30_encoding.md R71). -/
theorem ofWord_encode (i : Instr) : Fields.ofWord (encode i) = i.fields := ofWord_toWord i.fields

/-- A command that reads `TRDY` first goes on when it is 1 (10_state.md R23). -/
theorem requireTables_bind_of_ready (s : State) (f : Unit → Except Fault State) (ht : s.TRDY = true) :
    (s.requireTables >>= f) = f () := by
  rw [(requireTables_eq_ok s ()).2 ht, ok_bind]

/-- A command that reads `TRDY` first faults when it is 0 (10_state.md R23). -/
theorem finish_requireTables_of_not_ready (s : State) (f : Unit → Except Fault State) (ht : s.TRDY = false) :
    finish (s.requireTables >>= f) = .fault .tablesNotReady := by
  rw [(requireTables_eq_error s _).2 ⟨ht, rfl⟩, error_bind, finish_error]

theorem exec_gfadd_of_ready (a b : Byte) (s : State) (ht : s.TRDY = true) :
    exec (.gfadd a b) s = .next (s.respond (a ^^^ b)) :=
  congrArg finish (requireTables_bind_of_ready s _ ht)

theorem exec_gfmul_of_ready (a b : Byte) (s : State) (hs : s.Inv) (ht : s.TRDY = true) :
    exec (.gfmul a b) s = .next (s.respond (gfMul a b)) := by
  obtain ⟨hmult, -⟩ := hs.ready ht
  refine (congrArg finish (requireTables_bind_of_ready s _ ht)).trans ?_
  rw [mulOf_final s hmult]
  rfl

theorem exec_gfinv_of_ready (a v : Byte) (s : State) (hs : s.Inv) (ht : s.TRDY = true) (hv : gfMul a v = 1) :
    exec (.gfinv a) s = .next (s.respond v) := by
  obtain ⟨-, hinvt⟩ := hs.ready ht
  obtain ⟨ha, -⟩ := ne_zero_of_gfMul_eq_one a v hv
  refine (congrArg finish (requireTables_bind_of_ready s _ ht)).trans ?_
  rw [(require_eq_ok _ _ ()).2 (decide_eq_true ha), ok_bind, hinvt, get_written, ok_bind,
    (invTable_inv_eq_ok a v).2 hv]
  rfl

theorem exec_gfinv_zero_of_ready (s : State) (ht : s.TRDY = true) : exec (.gfinv 0) s = .fault .invZero :=
  congrArg finish (requireTables_bind_of_ready s _ ht)

/-- Settles O13: GFADD reads `TRDY`, then responds. -/
theorem gfaddRespondsSum : Obligations.GfaddRespondsSum := by
  intro a b s
  exact ⟨exec_gfadd_of_ready a b s, finish_requireTables_of_not_ready s _, ofWord_encode (.gfadd a b)⟩

/-- Settles O14: under the invariant the entry of `MULT` is the product, which R92 constructs. -/
theorem gfmulRespondsProduct : Obligations.GfmulRespondsProduct := by
  intro a b s hs
  exact ⟨fun ht => ⟨gfMul a b, (mexMul_eq_gfMul a b).symm, exec_gfmul_of_ready a b s hs ht⟩,
    finish_requireTables_of_not_ready s _, ofWord_encode (.gfmul a b)⟩

/-- Settles O15: under the invariant the entry of `INVT` is the byte with product 1, so neither factor is zero. -/
theorem gfinvRespondsInverse : Obligations.GfinvRespondsInverse := by
  intro a s hs
  refine ⟨fun ht ha => ?_, ?_, finish_requireTables_of_not_ready s _, ofWord_encode (.gfinv a)⟩
  · obtain ⟨v, -, hv⟩ := exists_gfInv a ha
    obtain ⟨-, hne⟩ := ne_zero_of_gfMul_eq_one a v hv
    exact ⟨v, (mexMul_eq_one a v).2 hv, hne, exec_gfinv_of_ready a v s hs ht hv⟩
  · rintro ht rfl
    exact exec_gfinv_zero_of_ready s ht

end Sys2Proof.Proofs

/-! ### Proofs of the cross-product family: the two vectors, the stage and its conditions, the two reads

An input cross product is the output cross product of its point over the other points: this one fact carries the
questions of 41_cross_product.md R127. Then the model's two lists are the functions of R120 and R121, the stage under
and against the conditions of R123, and the settled obligations. -/

namespace Sys2Proof.Proofs

open Sys2Proof.Machine Sys2Proof.Laws

/-! #### Products of bytes -/

/-- The stage multiplies from the left (41_cross_product.md R124), `fieldProduct` from the right. -/
theorem product_gfMul (l : List Byte) : product gfMul l = fieldProduct l := by
  have hcomm : Std.Commutative gfMul := ⟨gfMul_comm⟩
  have hassoc : Std.Associative gfMul := ⟨gfMul_assoc⟩
  exact List.foldl_eq_foldr

theorem fieldProduct_perm (l m : List Byte) (h : l.Perm m) : fieldProduct l = fieldProduct m := by
  have hcomm : Std.Commutative gfMul := ⟨gfMul_comm⟩
  have hassoc : Std.Associative gfMul := ⟨gfMul_assoc⟩
  exact h.foldr_eq 1

/-- A product is zero exactly when some factor is: there are no zero divisors (40_field_arithmetic.md R97). -/
theorem fieldProduct_eq_zero (l : List Byte) : fieldProduct l = 0 ↔ 0 ∈ l := by
  induction l with
  | nil => decide
  | cons a l ih =>
    have hcons : fieldProduct (a :: l) = gfMul a (fieldProduct l) := rfl
    rw [hcons, List.mem_cons, ← ih]
    constructor
    · exact fun h => (gfMul_eq_zero a _ h).imp_left Eq.symm
    · rintro (rfl | h)
      · exact gfMul_zero_left _
      · rw [h, gfMul_zero_right]

/-! #### The cross products of R120 and R121 -/

theorem map_getD_range (xs : List Byte) : (List.range xs.length).map (fun k => xs.getD k 0) = xs := by
  refine List.ext_getElem (by simp) fun k h₁ h₂ => ?_
  simp [h₂]

/-- Reading a list at every index but one drops that entry. -/
theorem map_getD_range_ne (xs : List Byte) (j : Nat) (hj : j < xs.length) :
    ((List.range xs.length).filter (· ≠ j)).map (fun k => xs.getD k 0) = xs.eraseIdx j := by
  have hindices : (List.range xs.length).filter (· ≠ j) = (List.range xs.length).eraseIdx j := by
    have herase := List.nodup_range.erase_getElem j (by simpa using hj)
    rw [List.getElem_range, List.nodup_range.erase_eq_filter] at herase
    simpa [bne, beq_eq_decide] using herase
  rw [hindices, ← List.eraseIdx_map, map_getD_range]

theorem crossOut_eq (xs : List Byte) (z : Byte) : crossOut xs z = fieldProduct (xs.map (gfAdd z)) := by
  conv_rhs => rw [← map_getD_range xs, List.map_map]
  rfl

/-- `in_cross[j]` is the `out_cross` of `x_j` over the other input points. -/
theorem crossIn_eq_crossOut (xs : List Byte) (j : Nat) (hj : j < xs.length) :
    crossIn xs j = crossOut (xs.eraseIdx j) xs[j] := by
  rw [crossOut_eq, ← map_getD_range_ne xs j hj, List.map_map, ← List.getD_eq_getElem xs 0 hj]
  rfl

theorem crossOut_eq_zero (xs : List Byte) (z : Byte) : crossOut xs z = 0 ↔ z ∈ xs := by
  have hfactor : ∀ x, gfAdd z x = 0 ↔ z = x := fun x => BitVec.xor_eq_zero_iff
  simp only [crossOut_eq, fieldProduct_eq_zero, List.mem_map, hfactor, exists_eq_right']

theorem crossIn_eq_zero (xs : List Byte) (j : Nat) (hj : j < xs.length) :
    crossIn xs j = 0 ↔ ∃ (k : Nat) (hk : k < xs.length), k ≠ j ∧ xs[k] = xs[j] := by
  rw [crossIn_eq_crossOut xs j hj, crossOut_eq_zero, List.mem_eraseIdx_iff_getElem]

theorem crossOut_perm (xs ys : List Byte) (z : Byte) (h : xs.Perm ys) : crossOut xs z = crossOut ys z := by
  rw [crossOut_eq, crossOut_eq]
  exact fieldProduct_perm _ _ (h.map _)

/-- An order of the input points that moves entry `j` to entry `k` orders the others among themselves. -/
theorem crossIn_perm (xs ys : List Byte) (j k : Nat) (h : xs.Perm ys) (hj : j < xs.length) (hk : k < ys.length)
    (hx : xs[j] = ys[k]) : crossIn xs j = crossIn ys k := by
  have hother : (xs.eraseIdx j).Perm (ys.eraseIdx k) := h.eraseIdx_of_getElem?_eq (by simp [hj, hk, hx])
  rw [crossIn_eq_crossOut xs j hj, crossIn_eq_crossOut ys k hk, hx, crossOut_perm _ _ _ hother]

/-- Settles O28: a cross product is zero exactly when the point is among those it is taken over, and permuted points
are permuted factors. -/
theorem crossProductFacts : Obligations.CrossProductFacts := by
  refine ⟨fun xs j hnodup hj hzero => ?_, crossOut_eq_zero, fun xs j k hj hk hne heq => ⟨?_, ?_⟩,
    fun xs ys h => ⟨fun z => crossOut_perm xs ys z h, fun j k hj hk _ hx => crossIn_perm xs ys j k h hj hk hx⟩⟩
  · obtain ⟨k, hk, hne, heq⟩ := (crossIn_eq_zero xs j hj).1 hzero
    exact hne (hnodup.getElem_inj_iff.1 heq)
  · exact (crossIn_eq_zero xs j hj).2 ⟨k, hk, hne.symm, heq.symm⟩
  · exact (crossIn_eq_zero xs k hk).2 ⟨j, hj, hne, heq⟩

/-! #### The two vectors that the stage computes -/

@[simp] theorem inCross_length (mul : Byte → Byte → Byte) (xs : List Byte) : (inCross mul xs).length = xs.length := by
  simp [inCross]

@[simp] theorem outCross_length (mul : Byte → Byte → Byte) (xs zs : List Byte) :
    (outCross mul xs zs).length = zs.length := by
  simp [outCross]

theorem inCross_getElem (xs : List Byte) (j : Nat) (hj : j < (inCross gfMul xs).length) :
    (inCross gfMul xs)[j] = crossIn xs j := by
  have hj' : j < xs.length := by simpa using hj
  rw [crossIn_eq_crossOut xs j hj', crossOut_eq]
  simp [inCross, product_gfMul]

theorem outCross_getElem (xs zs : List Byte) (i : Nat) (hi : i < (outCross gfMul xs zs).length) :
    (outCross gfMul xs zs)[i] = crossOut xs (zs.getD i 0) := by
  have hi' : i < zs.length := by simpa using hi
  simp [outCross, product_gfMul, crossOut_eq, hi']

/-- The file made from a list whose entry at `j` is `v`, if it has one (41_cross_product.md R122). -/
theorem ofList_getElem_ite (l : List Byte) (j : Fin 256) (v : Byte) (hv : ∀ h : j.val < l.length, l[j.val] = v) :
    (RegFile.ofList l)[j] = if j.val < l.length then .written v else .unwritten := by
  by_cases hj : j.val < l.length
  · rw [if_pos hj, ← hv hj]
    exact ofList_getElem_lt l j j.isLt hj
  · rw [if_neg hj]
    exact ofList_getElem_ge l j j.isLt (not_lt.1 hj)

/-! #### The stage under the conditions of R123 -/

/-- A file holds at most 256 values, so a 9-bit count of them loses nothing (10_state.md R24). -/
theorem count_toNat_of_holds (f : RegFile) (l : List Byte) (h : f.Holds l) :
    (BitVec.ofNat 9 l.length).toNat = l.length := by
  obtain ⟨hlen, -⟩ := (first_eq_ok _ _ _).1 h
  rw [BitVec.toNat_ofNat, Nat.mod_eq_of_lt (by omega)]

theorem crossProductStage_of_ready (s : State) (xs zs : List Byte) (hs : s.TablesFinal) (hr : s.XprodReady xs zs) :
    crossProductStage s = .ok (s.withCtx (s.ctx.setCross (inCross gfMul xs) (outCross gfMul xs zs)).setXV) := by
  have hn := count_toNat_of_holds _ _ hr.points_in
  have hm := count_toNat_of_holds _ _ hr.points_out
  have hne : BitVec.ofNat 9 xs.length ≠ 0 := by
    intro h0
    rw [h0] at hn
    exact hr.nonempty (List.eq_nil_of_length_eq_zero hn.symm)
  exact (crossProductStage_eq_ok s _).2 ⟨_, _, xs, zs, gfMul, hr.trdy, hr.count_in, hr.count_out, hne,
    hn.symm ▸ hr.points_in, hm.symm ▸ hr.points_out, hr.distinct, mulOf_final s hs.1, rfl⟩

/-- Settles O24: the stage completes, and its two lists are the vectors of R120 and R121 entry by entry. -/
theorem xprodComputesTheVectors : Obligations.XprodComputesTheVectors := by
  refine ⟨by decide, fun s xs zs hs hr => ⟨_, congrArg finish (crossProductStage_of_ready s xs zs hs hr), rfl, ?_, ?_⟩⟩
  · intro j
    simpa using ofList_getElem_ite (inCross gfMul xs) j _ (inCross_getElem xs j)
  · intro i
    simpa using ofList_getElem_ite (outCross gfMul xs zs) i _ (outCross_getElem xs zs i)

/-! #### The stage when a condition of R123 fails -/

/-- The first entries fault exactly when one of them is unwritten (00_scope.md R17). -/
theorem first_eq_error_iff (f : RegFile) (n : Nat) (r : Fault) :
    f.first n = .error r ↔ (∃ j : Fin 256, j.val < n ∧ f[j] = .unwritten) ∧ r = .unwritten := by
  constructor
  · intro h
    obtain ⟨hr, j, hlt, hj, hunwritten⟩ := first_eq_error f n r h
    exact ⟨⟨⟨j, hlt⟩, hj, hunwritten⟩, hr⟩
  · rintro ⟨⟨j, hj, hunwritten⟩, rfl⟩
    cases hfirst : f.first n with
    | error r => rw [(first_eq_error f n r hfirst).1]
    | ok l =>
      obtain ⟨hlen, hget⟩ := (first_eq_ok f n l).1 hfirst
      have hwritten : f[j] = .written _ := hget j (by omega) j.isLt
      rw [hunwritten] at hwritten
      cases hwritten

theorem first_of_all_written (f : RegFile) (n : Nat) (h : ∀ j : Fin 256, j.val < n → f[j] ≠ .unwritten) :
    ∃ l, f.first n = .ok l := by
  cases hfirst : f.first n with
  | ok l => exact ⟨l, rfl⟩
  | error r =>
    obtain ⟨⟨j, hj, hunwritten⟩, -⟩ := (first_eq_error_iff f n r).1 hfirst
    exact absurd hunwritten (h j hj)

/-- Two equal entries are two equal values of the list read. -/
theorem not_nodup_of_equal_entries (f : RegFile) (n : Nat) (l : List Byte) (hl : f.first n = .ok l) (j k : Fin 256)
    (hne : j ≠ k) (hj : j.val < n) (hk : k.val < n) (heq : f[j] = f[k]) : ¬ l.Nodup := by
  obtain ⟨hlen, hget⟩ := (first_eq_ok f n l).1 hl
  have hfj : f[j] = .written _ := hget j (by omega) j.isLt
  have hfk : f[k] = .written _ := hget k (by omega) k.isLt
  rw [hfj, hfk, Loc.written.injEq] at heq
  exact fun hnodup => hne (Fin.ext (hnodup.getElem_inj_iff.1 heq))

/-- The Cross-Product Stage faults exactly when a row of the table of 41_cross_product.md R123 fails that no earlier row
shuts out, or, in states that no run reaches, when `TRDY = 1` and `MULT` is unwritten. -/
theorem crossProductStage_eq_error (s : State) (r : Fault) :
    crossProductStage s = .error r ↔
      (s.TRDY = false ∧ r = .tablesNotReady) ∨
      (s.TRDY = true ∧ (s.ctx.IN = .unwritten ∨ s.ctx.ON = .unwritten) ∧ r = .unwritten) ∨
      ∃ n m, s.TRDY = true ∧ s.ctx.IN = .written n ∧ s.ctx.ON = .written m ∧
        ((n = 0 ∧ r = .inZero) ∨
        (n ≠ 0 ∧ ((∃ j : Fin 256, j.val < n.toNat ∧ s.ctx.XP[j] = .unwritten) ∨
          ∃ k : Fin 256, k.val < m.toNat ∧ s.ctx.ZP[k] = .unwritten) ∧ r = .unwritten) ∨
        ∃ xs zs, n ≠ 0 ∧ s.ctx.XP.first n.toNat = .ok xs ∧ s.ctx.ZP.first m.toNat = .ok zs ∧
          ((¬ xs.Nodup ∧ r = .dupPoint) ∨ (xs.Nodup ∧ s.mulOf = .error r))) := by
  simp only [crossProductStage, bind_eq_error, requireTables_eq_error, requireTables_eq_ok, get_eq_error, get_eq_ok,
    require_eq_error, require_eq_ok, first_eq_error_iff, decide_eq_true_eq, decide_eq_false_iff_not, not_not]
  constructor
  · rintro (h | ⟨-, ht, ⟨hin, rfl⟩ | ⟨n, hin, ⟨hon, rfl⟩ | ⟨m, hon, hzero | ⟨-, hn, ⟨hxp, rfl⟩ | ⟨xs, hxs, ⟨hzp, rfl⟩ |
      ⟨zs, hzs, hdup | ⟨-, hdistinct, hmul | ⟨_, -, ⟨⟩⟩⟩⟩⟩⟩⟩⟩⟩)
    · exact .inl h
    · exact .inr (.inl ⟨ht, .inl hin, rfl⟩)
    · exact .inr (.inl ⟨ht, .inr hon, rfl⟩)
    · exact .inr (.inr ⟨n, m, ht, hin, hon, .inl hzero⟩)
    · exact .inr (.inr ⟨n, m, ht, hin, hon, .inr (.inl ⟨hn, .inl hxp, rfl⟩)⟩)
    · exact .inr (.inr ⟨n, m, ht, hin, hon, .inr (.inl ⟨hn, .inr hzp, rfl⟩)⟩)
    · exact .inr (.inr ⟨n, m, ht, hin, hon, .inr (.inr ⟨xs, zs, hn, hxs, hzs, .inl hdup⟩)⟩)
    · exact .inr (.inr ⟨n, m, ht, hin, hon, .inr (.inr ⟨xs, zs, hn, hxs, hzs, .inr ⟨hdistinct, hmul⟩⟩)⟩)
  · rintro (h | ⟨ht, hin | hon, rfl⟩ | ⟨n, m, ht, hin, hon, hzero | ⟨hn, hxp | hzp, rfl⟩ |
      ⟨xs, zs, hn, hxs, hzs, hdup | ⟨hdistinct, hmul⟩⟩⟩)
    · exact .inl h
    · exact .inr ⟨(), ht, .inl ⟨hin, rfl⟩⟩
    · cases hin : s.ctx.IN with
      | unwritten => exact .inr ⟨(), ht, .inl ⟨rfl, rfl⟩⟩
      | written n => exact .inr ⟨(), ht, .inr ⟨n, rfl, .inl ⟨hon, rfl⟩⟩⟩
    · exact .inr ⟨(), ht, .inr ⟨n, hin, .inr ⟨m, hon, .inl hzero⟩⟩⟩
    · exact .inr ⟨(), ht, .inr ⟨n, hin, .inr ⟨m, hon, .inr ⟨(), hn, .inl ⟨hxp, rfl⟩⟩⟩⟩⟩
    · refine .inr ⟨(), ht, .inr ⟨n, hin, .inr ⟨m, hon, .inr ⟨(), hn, ?_⟩⟩⟩⟩
      cases hxs : s.ctx.XP.first n.toNat with
      | error r => exact .inl ⟨((first_eq_error_iff _ _ r).1 hxs).1, rfl⟩
      | ok xs => exact .inr ⟨xs, rfl, .inl ⟨hzp, rfl⟩⟩
    · exact .inr ⟨(), ht, .inr ⟨n, hin, .inr ⟨m, hon, .inr ⟨(), hn, .inr ⟨xs, hxs, .inr ⟨zs, hzs, .inl hdup⟩⟩⟩⟩⟩⟩
    · exact .inr ⟨(), ht, .inr ⟨n, hin, .inr ⟨m, hon, .inr ⟨(), hn, .inr ⟨xs, hxs, .inr ⟨zs, hzs,
        .inr ⟨(), hdistinct, .inl hmul⟩⟩⟩⟩⟩⟩⟩

/-- Equal input points with every point written (41_cross_product.md R123, last row). -/
theorem crossProductStage_of_duplicate (s : State) (n m : BitVec 9) (ht : s.TRDY = true)
    (hin : s.ctx.IN = .written n) (hon : s.ctx.ON = .written m) (hn : n ≠ 0)
    (hxp : ∀ j : Fin 256, j.val < n.toNat → s.ctx.XP[j] ≠ .unwritten)
    (hzp : ∀ k : Fin 256, k.val < m.toNat → s.ctx.ZP[k] ≠ .unwritten)
    (h : ∃ j k : Fin 256, j ≠ k ∧ j.val < n.toNat ∧ k.val < n.toNat ∧ s.ctx.XP[j] = s.ctx.XP[k]) :
    crossProductStage s = .error .dupPoint := by
  obtain ⟨xs, hxs⟩ := first_of_all_written _ _ hxp
  obtain ⟨zs, hzs⟩ := first_of_all_written _ _ hzp
  obtain ⟨j, k, hne, hj, hk, heq⟩ := h
  have hdup : ¬ xs.Nodup := not_nodup_of_equal_entries _ _ xs hxs j k hne hj hk heq
  exact (crossProductStage_eq_error s _).2
    (.inr (.inr ⟨n, m, ht, hin, hon, .inr (.inr ⟨xs, zs, hn, hxs, hzs, .inl ⟨hdup, rfl⟩⟩)⟩))

/-- Both commands run the stage first, so a fault of the stage is theirs (42_interpolation.md R148). -/
theorem exec_of_crossProductStage_error (i : Instr) (s : State) (r : Fault) (hi : i = .xprod ∨ i = .transform)
    (h : crossProductStage s = .error r) : exec i s = .fault r := by
  rcases hi with rfl | rfl
  · exact congrArg finish h
  · exact (finish_eq_fault _ r).2 ((bind_eq_error _ _ r).2 (.inl h))

/-- Settles O25: each condition is a fault of the Cross-Product Stage, which both commands pass on. -/
theorem crossProductConditions : Obligations.CrossProductConditions := by
  intro i s hi
  have hfault (r) (h : crossProductStage s = .error r) := exec_of_crossProductStage_error i s r hi h
  simp only [crossProductStage_eq_error] at hfault
  refine ⟨fun ht => ?_, fun ht h => ?_, fun m ht hin hon => ?_, fun n m ht hin hon hn h => ?_,
    fun n m ht hin hon hn hxp hzp h => ?_⟩
  · exact hfault _ (.inl ⟨ht, rfl⟩)
  · exact hfault _ (.inr (.inl ⟨ht, h, rfl⟩))
  · exact hfault _ (.inr (.inr ⟨0, m, ht, hin, hon, .inl ⟨rfl, rfl⟩⟩))
  · exact hfault _ (.inr (.inr ⟨n, m, ht, hin, hon, .inr (.inl ⟨hn, h, rfl⟩)⟩))
  · exact exec_of_crossProductStage_error i s _ hi
      (crossProductStage_of_duplicate s n m ht hin hon hn hxp hzp h)

/-! #### RDIC, RDOC (R125, R126) -/

/-- A command that responds a location, when it is written. -/
theorem finish_respond_of_written (s : State) (l : Loc Byte) (v : Byte) (h : l = .written v) :
    finish (do let v ← l.get; return s.respond v) = .next (s.respond v) := by
  subst h
  rfl

/-- A command that responds a location, when it is unwritten (00_scope.md R17). -/
theorem finish_respond_of_unwritten (s : State) (l : Loc Byte) (h : l = .unwritten) :
    finish (do let v ← l.get; return s.respond v) = .fault .unwritten := by
  subst h
  rfl

/-- Settles O26: RDIC reads one entry of `ICR` and no flag. -/
theorem rdicRespondsInputCrossProduct : Obligations.RdicRespondsInputCrossProduct := by
  intro j s
  exact ⟨finish_respond_of_written s _, finish_respond_of_unwritten s _, ofWord_encode (.rdic j)⟩

/-- Settles O27: RDOC reads one entry of `OCR` and no flag. -/
theorem rdocRespondsOutputCrossProduct : Obligations.RdocRespondsOutputCrossProduct := by
  intro i s
  exact ⟨finish_respond_of_written s _, finish_respond_of_unwritten s _, ofWord_encode (.rdoc i)⟩

end Sys2Proof.Proofs

/-! ### Proofs of the interpolation family, first part: the formulas of R141 and R142 are Lagrange interpolation

The laws of 40_field_arithmetic.md R95 make the bytes a field, so the polynomials of R149 (c) are Mathlib's: the cross
products are the values of the nodal polynomial and its weights, and the interpolant of the rules is the value of the one
polynomial through the inputs. Lists of coefficients stand for these polynomials. -/

namespace Sys2Proof.Proofs

open Sys2Proof.Machine Sys2Proof.Laws Polynomial

/-! #### The bytes as a field -/

/-- `φ` carries `add` and `mul` of the bytes to the sum and the product of a field (40_field_arithmetic.md R95). -/
structure FieldMap {F : Type} [Field F] (φ : Byte ≃ F) : Prop where
  map_add : ∀ a b, φ (a ^^^ b) = φ a + φ b
  map_mul : ∀ a b, φ (gfMul a b) = φ a * φ b

theorem gfMul_fieldInv (a : Byte) (ha : a ≠ 0) : gfMul a (fieldInv a) = 1 := by
  obtain ⟨i, hi, hone⟩ := exists_gfInv a ha
  rwa [fieldInv, hi]

/-- The laws of R95 make the bytes a field. -/
abbrev byteField : Field Byte :=
  @Field.ofMinimalAxioms Byte ⟨gfAdd⟩ ⟨gfMul⟩ ⟨id⟩ ⟨fieldInv⟩ ⟨0⟩ ⟨1⟩ BitVec.xor_assoc (fun _ => BitVec.zero_xor)
    (fun _ => BitVec.xor_self) gfMul_assoc gfMul_comm gfMul_one_left gfMul_fieldInv rfl gfMul_xor_right
    ⟨0, 1, by decide⟩

/-- What Mathlib proves of polynomials over a field thus holds of the bytes. The field is given apart from `Byte`, whose
own `+` and `*` are those of integers modulo 256. -/
theorem exists_fieldMap : ∃ (F : Type) (_ : Field F) (φ : Byte ≃ F), FieldMap φ :=
  ⟨Byte, byteField, Equiv.refl Byte, @FieldMap.mk Byte byteField _ (fun _ _ => rfl) (fun _ _ => rfl)⟩

/-- Entry `k` of a list of bytes, in the field. -/
def entryOf {F : Type} (φ : Byte ≃ F) (l : List Byte) (k : Nat) : F := φ (l.getD k 0)

theorem entryOf_injOn {F : Type} (φ : Byte ≃ F) (xs : List Byte) (hnodup : xs.Nodup) :
    Set.InjOn (entryOf φ xs) (Finset.range xs.length) := by
  intro j hj k hk heq
  rw [Finset.mem_coe, Finset.mem_range] at hj hk
  have hbytes : xs.getD j 0 = xs.getD k 0 := φ.injective heq
  rwa [List.getD_eq_getElem xs 0 hj, List.getD_eq_getElem xs 0 hk, hnodup.getElem_inj_iff] at hbytes

section

variable {F : Type} [Field F] {φ : Byte ≃ F}

theorem FieldMap.map_zero (h : FieldMap φ) : φ 0 = 0 := by
  simpa using h.map_add 0 0

theorem FieldMap.map_one (h : FieldMap φ) : φ 1 = 1 := by
  have hne : φ 1 ≠ 0 := fun h0 => absurd (φ.injective (h0.trans h.map_zero.symm)) (by decide)
  have hsquare : φ 1 * φ 1 = φ 1 := by rw [← h.map_mul, gfMul_one_left]
  exact (mul_eq_left₀ hne).1 hsquare

/-- "Subtraction = addition" (40_field_arithmetic.md R91). -/
theorem FieldMap.map_sub (h : FieldMap φ) (a b : Byte) : φ (a ^^^ b) = φ a - φ b :=
  eq_sub_of_add_eq (by rw [← h.map_add, BitVec.xor_assoc, BitVec.xor_self, BitVec.xor_zero])

theorem FieldMap.map_inv (h : FieldMap φ) (a : Byte) : φ (fieldInv a) = (φ a)⁻¹ := by
  by_cases ha : a = 0
  · have hzero : fieldInv 0 = 0 := rfl
    rw [ha, hzero, h.map_zero, inv_zero]
  · exact eq_inv_of_mul_eq_one_right (by rw [← h.map_mul, gfMul_fieldInv a ha, h.map_one])

theorem FieldMap.map_fieldProduct (h : FieldMap φ) (l : List Byte) : φ (fieldProduct l) = (l.map φ).prod := by
  induction l with
  | nil => exact h.map_one
  | cons a l ih => rw [List.map_cons, List.prod_cons, ← ih, ← h.map_mul]; rfl

theorem FieldMap.map_xorSum (h : FieldMap φ) (l : List Byte) : φ (xorSum l) = (l.map φ).sum := by
  induction l with
  | nil => exact h.map_zero
  | cons a l ih => rw [List.map_cons, List.sum_cons, ← ih, ← h.map_add]; rfl

/-! #### The formulas of R120, R121, R141 and R142 as Lagrange interpolation -/

theorem FieldMap.map_crossOut (h : FieldMap φ) (xs : List Byte) (z : Byte) :
    φ (crossOut xs z) = (Lagrange.nodal (Finset.range xs.length) (entryOf φ xs)).eval (φ z) := by
  rw [Lagrange.eval_nodal, crossOut, h.map_fieldProduct, List.map_map, ← List.toFinset_range,
    List.prod_toFinset _ List.nodup_range]
  exact congrArg List.prod (List.map_congr_left fun k _ => h.map_sub z (xs.getD k 0))

theorem FieldMap.map_crossIn (h : FieldMap φ) (xs : List Byte) (j : Nat) :
    φ (crossIn xs j) = (Lagrange.nodalWeight (Finset.range xs.length) (entryOf φ xs) j)⁻¹ := by
  have hothers : ((List.range xs.length).filter (· ≠ j)).toFinset = (Finset.range xs.length).erase j := by
    ext k
    simp [and_comm]
  rw [Lagrange.nodalWeight, Finset.prod_inv_distrib, inv_inv, crossIn, h.map_fieldProduct, List.map_map,
    ← hothers, List.prod_toFinset _ (List.nodup_range.filter _)]
  exact congrArg List.prod (List.map_congr_left fun k _ => h.map_sub (xs.getD j 0) (xs.getD k 0))

/-- The polynomial of degree below the number of points with value `vs[j]` at `xs[j]`. -/
noncomputable def valuePolynomial (φ : Byte ≃ F) (xs vs : List Byte) : F[X] :=
  Lagrange.interpolate (Finset.range xs.length) (entryOf φ xs) (entryOf φ vs)

theorem degree_valuePolynomial_lt (φ : Byte ≃ F) (xs vs : List Byte) (hnodup : xs.Nodup) :
    (valuePolynomial φ xs vs).degree < xs.length := by
  have hlt := Lagrange.degree_interpolate_lt (entryOf φ vs) (entryOf_injOn φ xs hnodup)
  rwa [Finset.card_range] at hlt

/-- At a point outside the inputs, R141 is the first barycentric form of Lagrange's interpolation. -/
theorem FieldMap.map_lagrangeFormula (h : FieldMap φ) (xs vs : List Byte) (z : Byte) (hz : z ∉ xs) :
    φ (lagrangeFormula xs vs z) = (valuePolynomial φ xs vs).eval (φ z) := by
  have hnode : ∀ j ∈ Finset.range xs.length, φ z ≠ entryOf φ xs j := by
    intro j hj heq
    rw [Finset.mem_range] at hj
    rw [entryOf, List.getD_eq_getElem xs 0 hj, φ.injective.eq_iff] at heq
    exact hz (heq ▸ List.getElem_mem hj)
  rw [valuePolynomial, Lagrange.eval_interpolate_not_at_node _ hnode, Finset.mul_sum, lagrangeFormula, h.map_xorSum,
    List.map_map, ← List.toFinset_range, List.sum_toFinset _ List.nodup_range, List.toFinset_range]
  refine congrArg List.sum (List.map_congr_left fun j _ => ?_)
  simp only [Function.comp_apply, h.map_mul, h.map_inv, h.map_sub, h.map_crossOut, h.map_crossIn, mul_inv, inv_inv,
    entryOf]
  ring

theorem interpolant_at_input (xs vs : List Byte) (hnodup : xs.Nodup) (j : Nat) (hj : j < xs.length) :
    interpolant xs vs xs[j] = vs.getD j 0 := by
  have hindex : xs.idxOf? xs[j] = some j :=
    List.idxOf?_eq_some_iff.2 ⟨hj, rfl, fun k hk heq => hk.ne (hnodup.getElem_inj_iff.1 heq)⟩
  rw [interpolant, hindex]

theorem interpolant_of_not_mem (xs vs : List Byte) (z : Byte) (hz : z ∉ xs) :
    interpolant xs vs z = lagrangeFormula xs vs z := by
  rw [interpolant, List.idxOf?_eq_none_iff.2 hz]

/-- The output byte at any point is the value of the one polynomial there, coincident or not
(42_interpolation.md R149 (c)). -/
theorem FieldMap.map_interpolant (h : FieldMap φ) (xs vs : List Byte) (hnodup : xs.Nodup) (z : Byte) :
    φ (interpolant xs vs z) = (valuePolynomial φ xs vs).eval (φ z) := by
  by_cases hz : z ∈ xs
  · obtain ⟨j, hj, rfl⟩ := List.mem_iff_getElem.1 hz
    have hnode := Lagrange.eval_interpolate_at_node (entryOf φ vs) (entryOf_injOn φ xs hnodup) (Finset.mem_range.2 hj)
    rw [interpolant_at_input xs vs hnodup j hj, valuePolynomial, ← List.getD_eq_getElem xs 0 hj]
    exact hnode.symm
  · rw [interpolant_of_not_mem xs vs z hz, h.map_lagrangeFormula xs vs z hz]

/-! #### Lists of coefficients -/

/-- The polynomial with the given coefficients, constant term first. -/
noncomputable def polynomialOf (φ : Byte ≃ F) (cs : List Byte) : F[X] := cs.foldr (fun c p => C (φ c) + X * p) 0

theorem polynomialOf_cons (φ : Byte ≃ F) (c : Byte) (cs : List Byte) :
    polynomialOf φ (c :: cs) = C (φ c) + X * polynomialOf φ cs := rfl

theorem FieldMap.map_polyEval (h : FieldMap φ) (cs : List Byte) (z : Byte) :
    φ (polyEval cs z) = (polynomialOf φ cs).eval (φ z) := by
  induction cs with
  | nil => simpa [polyEval, polynomialOf] using h.map_zero
  | cons c cs ih =>
    have heval : polyEval (c :: cs) z = c ^^^ gfMul z (polyEval cs z) := rfl
    rw [heval, polynomialOf_cons, h.map_add, h.map_mul, ih]
    simp

theorem FieldMap.coeff_polynomialOf (h : FieldMap φ) (cs : List Byte) (k : Nat) :
    (polynomialOf φ cs).coeff k = φ (cs.getD k 0) := by
  induction cs generalizing k with
  | nil => simpa [polynomialOf] using h.map_zero.symm
  | cons c cs ih =>
    cases k with
    | zero => simp [polynomialOf_cons]
    | succ k => simp [polynomialOf_cons, ih]

theorem FieldMap.degree_polynomialOf_lt (h : FieldMap φ) (cs : List Byte) : (polynomialOf φ cs).degree < cs.length := by
  rw [degree_lt_iff_coeff_zero]
  intro k hk
  rw [h.coeff_polynomialOf, List.getD_eq_default cs 0 hk, h.map_zero]

/-- Every polynomial of degree below `n` has a list of `n` coefficients. -/
theorem FieldMap.exists_polynomialOf_eq (h : FieldMap φ) (n : Nat) (p : F[X]) (hp : p.degree < n) :
    ∃ cs : List Byte, cs.length = n ∧ polynomialOf φ cs = p := by
  refine ⟨(List.range n).map fun k => φ.symm (p.coeff k), by simp, ?_⟩
  ext k
  rw [h.coeff_polynomialOf]
  by_cases hk : k < n
  · simp [hk]
  · have hcoeff : p.coeff k = 0 := (degree_lt_iff_coeff_zero p n).1 hp k (not_lt.1 hk)
    rw [List.getD_eq_default _ 0 (by simpa using hk), h.map_zero, hcoeff]

/-- At most as many coefficients as there are distinct points are fixed by the values there. -/
theorem FieldMap.polynomialOf_eq_of_values (h : FieldMap φ) (cs ds xs : List Byte) (hc : cs.length ≤ xs.length)
    (hd : ds.length ≤ xs.length) (hnodup : xs.Nodup) (hvalues : ∀ x ∈ xs, polyEval cs x = polyEval ds x) :
    polynomialOf φ cs = polynomialOf φ ds := by
  have hdegree (es : List Byte) (he : es.length ≤ xs.length) :
      (polynomialOf φ es).degree < (Finset.range xs.length).card := by
    rw [Finset.card_range]
    exact (h.degree_polynomialOf_lt es).trans_le (by exact_mod_cast he)
  refine eq_of_degrees_lt_of_eval_index_eq _ (entryOf_injOn φ xs hnodup) (hdegree cs hc) (hdegree ds hd)
    fun j hj => ?_
  have hx : xs.getD j 0 ∈ xs := by
    rw [List.getD_eq_getElem xs 0 (Finset.mem_range.1 hj)]
    exact List.getElem_mem _
  rw [entryOf, ← h.map_polyEval, ← h.map_polyEval, hvalues _ hx]

end

/-! #### The interpolating polynomial, over the bytes (R149 (c)) -/

theorem exists_polyEval_eq_interpolant (xs vs : List Byte) (hnodup : xs.Nodup) :
    ∃ cs : List Byte, cs.length = xs.length ∧ ∀ z, polyEval cs z = interpolant xs vs z := by
  obtain ⟨F, _, φ, hφ⟩ := exists_fieldMap
  obtain ⟨cs, hlen, hpoly⟩ := hφ.exists_polynomialOf_eq _ _ (degree_valuePolynomial_lt φ xs vs hnodup)
  refine ⟨cs, hlen, fun z => φ.injective ?_⟩
  rw [hφ.map_polyEval, hpoly, hφ.map_interpolant xs vs hnodup]

theorem polyEval_eq_of_values (cs ds xs : List Byte) (hc : cs.length ≤ xs.length) (hd : ds.length ≤ xs.length)
    (hnodup : xs.Nodup) (hvalues : ∀ x ∈ xs, polyEval cs x = polyEval ds x) (z : Byte) :
    polyEval cs z = polyEval ds z := by
  obtain ⟨F, _, φ, hφ⟩ := exists_fieldMap
  apply φ.injective
  rw [hφ.map_polyEval, hφ.map_polyEval, hφ.polynomialOf_eq_of_values cs ds xs hc hd hnodup hvalues]

/-- Settles O38: over the field of the bytes the two polynomials are equal, hence so are their coefficients. -/
theorem polynomialFixedByItsValues : Obligations.PolynomialFixedByItsValues := by
  intro cs ds xs hc hd hnodup hvalues
  obtain ⟨F, _, φ, hφ⟩ := exists_fieldMap
  have hpoly := hφ.polynomialOf_eq_of_values cs ds xs hc.le hd.le hnodup hvalues
  refine List.ext_getElem (hc.trans hd.symm) fun k hk hk' => φ.injective ?_
  rw [← List.getD_eq_getElem cs 0 hk, ← List.getD_eq_getElem ds 0 hk', ← hφ.coeff_polynomialOf, hpoly,
    hφ.coeff_polynomialOf]

/-- More points on the interpolant of some inputs have that interpolant themselves (R149 (d)). -/
theorem interpolant_of_values_on_interpolant (xs vs ys ws : List Byte) (hx : xs.Nodup) (hy : ys.Nodup)
    (hle : xs.length ≤ ys.length) (hvalues : ∀ (j : Nat) (hj : j < ys.length), ws.getD j 0 = interpolant xs vs ys[j])
    (z : Byte) : interpolant ys ws z = interpolant xs vs z := by
  obtain ⟨cs, hc, hcs⟩ := exists_polyEval_eq_interpolant xs vs hx
  obtain ⟨ds, hd, hds⟩ := exists_polyEval_eq_interpolant ys ws hy
  rw [← hcs, ← hds]
  refine polyEval_eq_of_values ds cs ys hd.le (by omega) hy (fun y hmem => ?_) z
  obtain ⟨j, hj, rfl⟩ := List.mem_iff_getElem.1 hmem
  rw [hds, hcs, interpolant_at_input ys ws hy j hj, hvalues j hj]

end Sys2Proof.Proofs

/-! ### Proofs of the interpolation family, second part: the stage, its conditions, its frame, the properties of R149

What one byte of the engine is, then the rows, the stage under and against the conditions of R147, TRANSFORM as both
stages, what they leave alone, what they read, and the settled obligations. -/

namespace Sys2Proof.Proofs

open Sys2Proof.Machine Sys2Proof.Laws

/-! #### One output byte (R141, R142) -/

theorem fieldArith_inv (a : Byte) (ha : a ≠ 0) : fieldArith.inv a = .ok (fieldInv a) := by
  obtain ⟨i, hi, -⟩ := exists_gfInv a ha
  simp only [fieldArith, fieldInv, hi, Option.getD_some]

theorem coefficient_of_nonzero (z oc x ic : Byte) (h : gfMul ic (gfAdd z x) ≠ 0) :
    coefficient fieldArith z oc x ic = .ok (gfMul oc (fieldInv (gfMul ic (gfAdd z x)))) := by
  have hinv : fieldArith.inv (fieldArith.mul ic (gfAdd z x)) = .ok (fieldInv (gfMul ic (gfAdd z x))) :=
    fieldArith_inv _ h
  rw [coefficient, hinv]
  rfl

/-- The term of one input point, given as its point, its cross product and its value byte (42_interpolation.md R141). -/
def lagrangeTerm (z oc : Byte) : Byte × Byte × Byte → Byte
  | (x, ic, v) => gfMul v (gfMul oc (fieldInv (gfMul ic (gfAdd z x))))

theorem lagrangeSum_of_nonzero (z oc : Byte) (l : List (Byte × Byte × Byte))
    (h : ∀ p ∈ l, gfMul p.2.1 (gfAdd z p.1) ≠ 0) :
    lagrangeSum fieldArith z oc l = .ok (xorSum (l.map (lagrangeTerm z oc))) := by
  induction l with
  | nil => rfl
  | cons p l ih =>
    obtain ⟨x, ic, v⟩ := p
    obtain ⟨hp, hl⟩ := List.forall_mem_cons.1 h
    rw [lagrangeSum, coefficient_of_nonzero z oc x ic hp, ih hl]
    rfl

/-- The model's list of inputs, term by term, is the sum of R141. -/
theorem map_lagrangeTerm (xs vs : List Byte) (z : Byte) (hv : vs.length = xs.length) :
    (xs.zip ((inCross gfMul xs).zip vs)).map (lagrangeTerm z (crossOut xs z)) =
      (List.range xs.length).map fun j =>
        gfMul (vs.getD j 0) (gfMul (crossOut xs z) (fieldInv (gfMul (crossIn xs j) (z ^^^ xs.getD j 0)))) := by
  refine List.ext_getElem (by simp [hv]) fun j hj hj' => ?_
  have hx : j < xs.length := by simpa using hj'
  simp [lagrangeTerm, inCross_getElem, gfAdd, hx, hv]

/-- No division by zero arises: the input points are distinct, and `z` is none of them (42_interpolation.md R146). -/
theorem lagrange_divisor_ne_zero (xs vs : List Byte) (z : Byte) (hnodup : xs.Nodup) (hz : z ∉ xs) :
    ∀ p ∈ xs.zip ((inCross gfMul xs).zip vs), gfMul p.2.1 (gfAdd z p.1) ≠ 0 := by
  intro p hp hzero
  obtain ⟨j, hj, rfl⟩ := List.mem_iff_getElem.1 hp
  have hx : j < xs.length := by simp at hj; omega
  simp only [List.getElem_zip, inCross_getElem] at hzero
  rcases gfMul_eq_zero _ _ hzero with hin | hadd
  · obtain ⟨k, hk, hne, heq⟩ := (crossIn_eq_zero xs j hx).1 hin
    exact hne (hnodup.getElem_inj_iff.1 heq)
  · exact hz (BitVec.xor_eq_zero_iff.1 hadd ▸ List.getElem_mem hx)

/-- With the cross products of distinct input points the engine's byte is the one of R141 or R142. -/
theorem outputByte_eq_interpolant (xs vs : List Byte) (z : Byte) (hnodup : xs.Nodup) (hv : vs.length = xs.length) :
    outputByte fieldArith xs (inCross gfMul xs) z (crossOut xs z) vs = .ok (interpolant xs vs z) := by
  rw [outputByte]
  rcases coincident_cases xs z with ⟨hnone, hz⟩ | ⟨c, hc, hsome, rfl⟩
  · rw [hnone, interpolant_of_not_mem xs vs z hz]
    dsimp only
    rw [lagrangeSum_of_nonzero z _ _ (lagrange_divisor_ne_zero xs vs z hnodup hz), map_lagrangeTerm xs vs z hv,
      lagrangeFormula]
  · rw [hsome, interpolant_at_input xs vs hnodup c hc]
    simp [hv, hc]

/-! #### The output rows (R147) -/

/-- The bytes that the engine writes: for each output point the interpolated byte at each offset. -/
def interpolantRows (xs zs : List Byte) (len : Nat) (v : Nat → Nat → Byte) : List (List Byte) :=
  zs.map fun z => (List.range len).map fun u => interpolant xs (columnOf v xs.length u) z

@[simp] theorem columnOf_length (v : Nat → Nat → Byte) (n t : Nat) : (columnOf v n t).length = n := by
  simp [columnOf]

theorem columnOf_getD (v : Nat → Nat → Byte) (n t j : Nat) (hj : j < n) : (columnOf v n t).getD j 0 = v j t := by
  simp [columnOf, hj]

theorem columns_of_valuesReady (s : State) (n len : Nat) (v : Nat → Nat → Byte) (hv : s.ValuesReady n len v) :
    s.ctx.IVM.columns n len = .ok ((List.range len).map (columnOf v n)) := by
  refine (columns_eq_ok _ _ _ _).2 ⟨by simp, fun u hu => ?_⟩
  have hu' : u < len := by simpa using hu
  refine (column_eq_ok _ _ _ _).2 ⟨by simp, fun j hj => ?_⟩
  have hj' : j < n := by simpa using hj
  simpa [columnOf] using hv.values j hj' u hu'

theorem outputRows_eq_interpolantRows (xs zs : List Byte) (len : Nat) (v : Nat → Nat → Byte) (hnodup : xs.Nodup) :
    outputRows fieldArith xs (inCross gfMul xs) zs (outCross gfMul xs zs)
      ((List.range len).map (columnOf v xs.length)) = .ok (interpolantRows xs zs len v) := by
  refine (outputRows_eq_ok _ _ _ _ _ _ _).2 ⟨by simp [interpolantRows], fun i _ hz ho => ?_⟩
  rw [outCross_getElem, List.getD_eq_getElem zs 0 hz, List.map_map]
  simp only [interpolantRows, List.getElem_map]
  exact collect_map_ok _ _ _ fun u _ => outputByte_eq_interpolant xs _ _ hnodup (by simp)

/-- Rows of bytes are written where they stand, and nowhere else (20_memory.md R50). -/
theorem read_writeRows_inside (rows : List (List Byte)) (m : Memory) (i u : Nat) (hi : i < rows.length)
    (hu : u < rows[i].length) (hlen : ∀ row ∈ rows, row.length ≤ 2 ^ 32) :
    (m.writeRows 0 rows).read i u = .written rows[i][u] := by
  have hrow := hlen rows[i] (List.getElem_mem hi)
  rw [read_writeRows rows m 0 i u hlen (by omega)]
  simp [hi, hu]

theorem read_writeRows_outside (rows : List (List Byte)) (m : Memory) (i u : Nat) (hu : u < 2 ^ 32)
    (hlen : ∀ row ∈ rows, row.length ≤ 2 ^ 32) (h : ∀ hi : i < rows.length, rows[i].length ≤ u) :
    (m.writeRows 0 rows).read i u = m.read i u := by
  rw [read_writeRows rows m 0 i u hlen hu]
  by_cases hi : i < rows.length
  · simp [hi, h hi]
  · simp [not_lt.1 hi]

theorem read_interpolantRows_inside (xs zs : List Byte) (len : Nat) (v : Nat → Nat → Byte) (m : Memory) (i u : Nat)
    (hlen : len ≤ 2 ^ 32) (hi : i < zs.length) (hu : u < len) :
    (m.writeRows 0 (interpolantRows xs zs len v)).read i u =
      .written (interpolant xs (columnOf v xs.length u) (zs.getD i 0)) := by
  rw [read_writeRows_inside _ m i u (by simpa [interpolantRows]) (by simpa [interpolantRows])
    (by simpa [interpolantRows] using fun _ _ => hlen)]
  simp [interpolantRows, hi]

theorem read_interpolantRows_outside (xs zs : List Byte) (len : Nat) (v : Nat → Nat → Byte) (m : Memory) (i u : Nat)
    (hlen : len ≤ 2 ^ 32) (hu : u < 2 ^ 32) (h : ¬(i < zs.length ∧ u < len)) :
    (m.writeRows 0 (interpolantRows xs zs len v)).read i u = m.read i u := by
  refine read_writeRows_outside _ m i u hu (by simpa [interpolantRows] using fun _ _ => hlen) fun hi => ?_
  simp only [interpolantRows, List.length_map, List.getElem_map, List.length_range] at hi ⊢
  omega

/-! #### The two stages under their conditions (R147, R148) -/

theorem exec_interp (s : State) : exec .interp s = finish (interpolationStage s) := rfl

theorem exec_transform (s : State) : exec .transform s = finish (crossProductStage s >>= interpolationStage) := rfl

theorem valuesReady_length_le (s : State) (n len : Nat) (v : Nat → Nat → Byte) (hv : s.ValuesReady n len v) :
    len ≤ 2 ^ 32 := by
  obtain ⟨l, -, rfl⟩ := hv.length
  exact l.isLt.le

/-- The cross products of as many points as a register file holds are read back (41_cross_product.md R122). -/
theorem first_ofList_of_count (n : Nat) (l ps : List Byte) (f : RegFile) (hf : f.Holds ps) (hl : l.length = ps.length)
    (hn : n = ps.length) : (RegFile.ofList l).first n = .ok l := by
  obtain ⟨hlen, -⟩ := (first_eq_ok _ _ _).1 hf
  rw [hn, ← hl]
  exact first_ofList l (by omega)

/-- The Interpolation Engine completes when `ICR` and `OCR` hold the cross products of the present points. -/
theorem interpolationStage_of_ready (s : State) (xs zs : List Byte) (len : Nat) (v : Nat → Nat → Byte)
    (hs : s.TablesFinal) (hr : s.XprodReady xs zs) (hv : s.ValuesReady xs.length len v) (hxv : s.ctx.XV = true)
    (hicr : s.ctx.ICR = .ofList (inCross gfMul xs)) (hocr : s.ctx.OCR = .ofList (outCross gfMul xs zs)) :
    interpolationStage s = .ok (s.withCtx (s.ctx.setOVM (interpolantRows xs zs len v))) := by
  obtain ⟨l, hln, rfl⟩ := hv.length
  have hn := count_toNat_of_holds _ _ hr.points_in
  have hm := count_toNat_of_holds _ _ hr.points_out
  have hcolumns := columns_of_valuesReady s _ _ v hv
  have hics := first_ofList_of_count _ (inCross gfMul xs) xs _ hr.points_in (by simp) hn
  have hocs := first_ofList_of_count _ (outCross gfMul xs zs) zs _ hr.points_out (by simp) hm
  exact (interpolationStage_eq_ok s _).2 ⟨_, _, l, _, xs, zs, _, _, fieldArith, _, hr.trdy, hxv, hr.count_in,
    hr.count_out, hln, hn.symm ▸ hcolumns, hn.symm ▸ hr.points_in, hm.symm ▸ hr.points_out, hicr ▸ hics, hocr ▸ hocs,
    arith_final s hs.1 hs.2, outputRows_eq_interpolantRows xs zs _ v hr.distinct, rfl⟩

/-- A file holds one list of each length, and a 9-bit count tells these lengths apart. -/
theorem holds_unique (f : RegFile) (l l' : List Byte) (h : f.Holds l) (h' : f.Holds l')
    (hcount : (.written (.ofNat 9 l.length) : Loc (BitVec 9)) = .written (.ofNat 9 l'.length)) : l = l' := by
  have hlen : l.length = l'.length := by
    rw [← count_toNat_of_holds f l h, ← count_toNat_of_holds f l' h', Loc.written.inj hcount]
  rw [RegFile.Holds, hlen] at h
  exact Except.ok.inj (h.symm.trans h')

/-- Valid cross products are those of the points that meet the conditions of 41_cross_product.md R123. -/
theorem cross_of_crossValid (s : State) (xs zs : List Byte) (hc : s.ctx.CrossValid) (hr : s.XprodReady xs zs) :
    s.ctx.ICR = .ofList (inCross gfMul xs) ∧ s.ctx.OCR = .ofList (outCross gfMul xs zs) := by
  obtain ⟨xs', zs', hin, hon, -, hxp, hzp, -, hicr, hocr⟩ := hc
  obtain rfl := holds_unique _ _ _ hxp hr.points_in (hin.symm.trans hr.count_in)
  obtain rfl := holds_unique _ _ _ hzp hr.points_out (hon.symm.trans hr.count_out)
  exact ⟨hicr, hocr⟩

/-- Settles O29: valid cross products are what the engine needs, and it writes the interpolated rows. -/
theorem interpWritesTheInterpolant : Obligations.InterpWritesTheInterpolant := by
  refine ⟨by decide, fun s xs zs len v hs hxv hr hv => ?_⟩
  obtain ⟨-, hvalid⟩ := (hs.contexts _ (ctx_mem_contexts s)).cross hxv
  obtain ⟨hicr, hocr⟩ := cross_of_crossValid s xs zs hvalid hr
  have hstage := interpolationStage_of_ready s xs zs len v (hs.ready hr.trdy) hr hv hxv hicr hocr
  have hlen := valuesReady_length_le s _ _ _ hv
  exact ⟨_, congrArg finish hstage, rfl, fun i u => read_interpolantRows_inside xs zs len v _ i u hlen,
    fun i u => read_interpolantRows_outside xs zs len v _ i u hlen⟩

/-- TRANSFORM under the conditions of 41_cross_product.md R123, with every input byte written. -/
theorem exec_transform_of_ready (s : State) (xs zs : List Byte) (len : Nat) (v : Nat → Nat → Byte)
    (hs : s.TablesFinal) (hr : s.XprodReady xs zs) (hv : s.ValuesReady xs.length len v) :
    exec .transform s = .next (s.withCtx
      ((s.ctx.setCross (inCross gfMul xs) (outCross gfMul xs zs)).setXV.setOVM (interpolantRows xs zs len v))) := by
  rw [exec_transform, crossProductStage_of_ready s xs zs hs hr, ok_bind]
  exact congrArg finish (interpolationStage_of_ready
    (s.withCtx (s.ctx.setCross (inCross gfMul xs) (outCross gfMul xs zs)).setXV) xs zs len v hs { hr with } { hv with }
    rfl rfl rfl)

/-- Settles O31: the Cross-Product Stage leaves what the Interpolation Engine needs. -/
theorem transformComputesBothStages : Obligations.TransformComputesBothStages := by
  refine ⟨by decide, fun s xs zs len v hs hr hv =>
    ⟨_, exec_transform_of_ready s xs zs len v hs hr hv, rfl, fun j => ?_, fun i => ?_, ?_, ?_⟩⟩
  · simpa using ofList_getElem_ite (inCross gfMul xs) j _ (inCross_getElem xs j)
  · simpa using ofList_getElem_ite (outCross gfMul xs zs) i _ (outCross_getElem xs zs i)
  · exact fun i u => read_interpolantRows_inside xs zs len v _ i u (valuesReady_length_le s _ _ _ hv)
  · exact fun i u => read_interpolantRows_outside xs zs len v _ i u (valuesReady_length_le s _ _ _ hv)

/-- Settles O32: both are the same bind. -/
theorem transformIsXprodThenInterp : Obligations.TransformIsXprodThenInterp := by
  intro s
  have hxprod : exec .xprod s = finish (crossProductStage s) := rfl
  refine ⟨fun t h => ?_, fun r h => exec_of_crossProductStage_error .transform s r (.inr rfl) ?_⟩
  · rw [hxprod, finish_eq_next] at h
    rw [exec_transform, h, ok_bind, exec_interp]
  · exact (finish_eq_fault _ r).1 h

/-! #### When a condition of R147 fails -/

/-- A read of a block of bytes can fault in one way only (00_scope.md R17). -/
theorem columns_eq_error (m : Memory) (n len : Nat) (r : Fault) (h : m.columns n len = .error r) : r = .unwritten := by
  obtain ⟨t, -, hcolumn⟩ := List.mem_map.1 (collect_eq_error _ r h)
  obtain ⟨j, -, hbyte⟩ := List.mem_map.1 (collect_eq_error _ r hcolumn)
  exact ((get_eq_error _ r).1 hbyte).2

theorem read_of_columns_eq_ok (m : Memory) (n len j t : Nat) (cols : List (List Byte)) (h : m.columns n len = .ok cols)
    (hj : j < n) (ht : t < len) : ∃ b, m.read j t = .written b := by
  obtain ⟨rfl, hcols⟩ := (columns_eq_ok _ _ _ _).1 h
  obtain ⟨rfl, hbytes⟩ := (column_eq_ok _ _ _ _).1 (hcols t ht)
  exact ⟨_, hbytes j hj⟩

theorem columns_of_unwritten (m : Memory) (n len j t : Nat) (hj : j < n) (ht : t < len)
    (h : m.read j t = .unwritten) : m.columns n len = .error .unwritten := by
  cases hcols : m.columns n len with
  | error r => rw [columns_eq_error m n len r hcols]
  | ok cols =>
    obtain ⟨b, hb⟩ := read_of_columns_eq_ok m n len j t cols hcols hj ht
    rw [h] at hb
    cases hb

/-- With both flags set, an unwritten register or input byte is a fault, whichever read meets it first
(42_interpolation.md R147; log 12). -/
theorem interpolationStage_of_unwritten (s : State) (ht : s.TRDY = true) (hxv : s.ctx.XV = true)
    (h : s.ctx.LN = .unwritten ∨ ∃ n len j t, s.ctx.IN = .written n ∧ s.ctx.LN = .written len ∧ j < n.toNat ∧
      t < len.toNat ∧ s.ctx.IVM.read j t = .unwritten) : interpolationStage s = .error .unwritten := by
  simp only [interpolationStage, (requireTables_eq_ok s ()).2 ht, (requireCross_eq_ok s.ctx ()).2 hxv, ok_bind]
  cases hin : s.ctx.IN with
  | unwritten => rfl
  | written n =>
    cases s.ctx.ON with
    | unwritten => rfl
    | written m =>
      rcases h with hln | ⟨n', len, j, t, hin', hln, hj, ht', hbyte⟩
      · simp [hln]
      · obtain rfl : n = n' := Loc.written.inj (hin.symm.trans hin')
        simp [hln, columns_of_unwritten _ _ _ j t hj ht' hbyte]

/-- Settles O30: each condition is a fault of the first read that meets it. -/
theorem interpConditions : Obligations.InterpConditions := by
  refine fun s => ⟨finish_requireTables_of_not_ready s _, fun ht hxv => ?_, fun ht hxv hln => ?_,
    fun n len ht hxv hin hln ⟨j, t, hj, ht', hbyte⟩ => ?_⟩
  · rw [exec_interp, interpolationStage, requireTables_bind_of_ready s _ ht,
      (requireCross_eq_error s.ctx _).2 ⟨hxv, rfl⟩, error_bind, finish_error]
  · exact congrArg finish (interpolationStage_of_unwritten s ht hxv (.inl hln))
  · exact congrArg finish
      (interpolationStage_of_unwritten s ht hxv (.inr ⟨n, len, j, t, hin, hln, hj, ht', hbyte⟩))

/-! #### What the two stages leave alone (R150) -/

/-- The rows of a completed stage: one for each output point, of `LN` bytes each, whatever the tables hold. -/
theorem rows_shape (s : State) (A : Arith) (xs ics zs ocs : List Byte) (columns rows : List (List Byte)) (n m len : Nat)
    (hcolumns : s.ctx.IVM.columns n len = .ok columns) (hzs : s.ctx.ZP.first m = .ok zs)
    (hocs : s.ctx.OCR.first m = .ok ocs) (hrows : outputRows A xs ics zs ocs columns = .ok rows) :
    rows.length = min m 256 ∧ ∀ row ∈ rows, row.length = len := by
  obtain ⟨hlen, -⟩ := (outputRows_eq_ok _ _ _ _ _ _ _).1 hrows
  obtain ⟨-, hrow⟩ := outputRows_shape _ _ _ _ _ _ _ hrows
  obtain ⟨hz, -⟩ := (first_eq_ok _ _ _).1 hzs
  obtain ⟨ho, -⟩ := (first_eq_ok _ _ _).1 hocs
  obtain ⟨rfl, -⟩ := (columns_eq_ok _ _ _ _).1 hcolumns
  exact ⟨by omega, hrow⟩

theorem interpolationStage_leaves_rest (s t : State) (h : interpolationStage s = .ok t) (m : BitVec 9) (len : BitVec 32)
    (hon : s.ctx.ON = .written m) (hln : s.ctx.LN = .written len) (i u : Nat) (hu : u < 2 ^ 32)
    (hout : m.toNat ≤ i ∨ len.toNat ≤ u) : t.ctx.OVM.read i u = s.ctx.OVM.read i u := by
  obtain ⟨n, m', len', columns, xs, zs, ics, ocs, A, rows, -, -, -, hon', hln', hcolumns, -, hzs, -, hocs, -, hrows,
    rfl⟩ := (interpolationStage_eq_ok s t).1 h
  obtain rfl : m' = m := Loc.written.inj (hon'.symm.trans hon)
  obtain rfl : len' = len := Loc.written.inj (hln'.symm.trans hln)
  obtain ⟨hlen, hrow⟩ := rows_shape s A xs ics zs ocs columns rows _ _ _ hcolumns hzs hocs hrows
  refine read_writeRows_outside rows _ i u hu (fun row hmem => (hrow row hmem).trans_le len'.isLt.le) fun hi => ?_
  rw [hrow _ (List.getElem_mem hi)]
  omega

/-- Settles O34: the Cross-Product Stage writes no memory, and the Interpolation Engine only its rows. -/
theorem interpolationLeavesTheRest : Obligations.InterpolationLeavesTheRest := by
  rintro i s t (rfl | rfl) h
  · have hstage := (finish_eq_next _ t).1 h
    obtain ⟨rows, rfl⟩ := interpolationStage_replaces_OVM s t hstage
    exact ⟨rfl, rfl, rfl, rfl, rfl, rfl, interpolationStage_leaves_rest s _ hstage⟩
  · obtain ⟨w, hcross, hstage⟩ := (bind_eq_ok _ _ t).1 ((finish_eq_next _ t).1 h)
    obtain ⟨ics, ocs, rfl⟩ := crossProductStage_replaces_cross s w hcross
    obtain ⟨rows, rfl⟩ := interpolationStage_replaces_OVM _ t hstage
    exact ⟨rfl, rfl, rfl, rfl, rfl, rfl,
      interpolationStage_leaves_rest (s.withCtx (s.ctx.setCross ics ocs).setXV) _ hstage⟩

/-! #### TRANSFORM as a function of what it reads (R148) -/

/-- The two machines agree on the counts, the length, the points below the counts, the input bytes below them, and the
tables (42_interpolation.md R148). -/
structure AgreeOnInputs (s₁ s₂ : State) : Prop where
  trdy : s₁.TRDY = s₂.TRDY
  mult : s₁.MULT = s₂.MULT
  invt : s₁.INVT = s₂.INVT
  count_in : s₁.ctx.IN = s₂.ctx.IN
  count_out : s₁.ctx.ON = s₂.ctx.ON
  length : s₁.ctx.LN = s₂.ctx.LN
  points_in : ∀ n, s₁.ctx.IN = .written n → ∀ j : Fin 256, j.val < n.toNat → s₁.ctx.XP[j] = s₂.ctx.XP[j]
  points_out : ∀ m, s₁.ctx.ON = .written m → ∀ i : Fin 256, i.val < m.toNat → s₁.ctx.ZP[i] = s₂.ctx.ZP[i]
  values : ∀ n len, s₁.ctx.IN = .written n → s₁.ctx.LN = .written len → ∀ j t : Nat, j < n.toNat → t < len.toNat →
    s₁.ctx.IVM.read j t = s₂.ctx.IVM.read j t

section

variable {s₁ s₂ : State}

theorem AgreeOnInputs.first_XP (h : AgreeOnInputs s₁ s₂) (n : BitVec 9) (hin : s₁.ctx.IN = .written n) :
    s₁.ctx.XP.first n.toNat = s₂.ctx.XP.first n.toNat :=
  first_congr _ _ _ fun j hlt hj => h.points_in n hin ⟨j, hlt⟩ hj

theorem AgreeOnInputs.first_ZP (h : AgreeOnInputs s₁ s₂) (m : BitVec 9) (hon : s₁.ctx.ON = .written m) :
    s₁.ctx.ZP.first m.toNat = s₂.ctx.ZP.first m.toNat :=
  first_congr _ _ _ fun i hlt hi => h.points_out m hon ⟨i, hlt⟩ hi

theorem AgreeOnInputs.columns_IVM (h : AgreeOnInputs s₁ s₂) (n : BitVec 9) (len : BitVec 32)
    (hin : s₁.ctx.IN = .written n) (hln : s₁.ctx.LN = .written len) :
    s₁.ctx.IVM.columns n.toNat len.toNat = s₂.ctx.IVM.columns n.toNat len.toNat := by
  refine congrArg collect (List.map_congr_left fun t ht => congrArg collect (List.map_congr_left fun j hj => ?_))
  rw [h.values n len hin hln j t (List.mem_range.1 hj) (List.mem_range.1 ht)]

theorem AgreeOnInputs.crossProductStage_eq (h : AgreeOnInputs s₁ s₂) (u₁ : State) (hu : crossProductStage s₁ = .ok u₁) :
    ∃ ics ocs, u₁ = s₁.withCtx (s₁.ctx.setCross ics ocs).setXV ∧
      crossProductStage s₂ = .ok (s₂.withCtx (s₂.ctx.setCross ics ocs).setXV) := by
  obtain ⟨n, m, xs, zs, mul, ht, hin, hon, hn, hxs, hzs, hnodup, hmul, rfl⟩ := (crossProductStage_eq_ok s₁ u₁).1 hu
  have hmul' : s₂.mulOf = .ok mul := by rwa [State.mulOf, ← h.mult]
  exact ⟨_, _, rfl, (crossProductStage_eq_ok s₂ _).2 ⟨n, m, xs, zs, mul, h.trdy ▸ ht, h.count_in ▸ hin,
    h.count_out ▸ hon, hn, h.first_XP n hin ▸ hxs, h.first_ZP m hon ▸ hzs, hnodup, hmul', rfl⟩⟩

/-- With the same cross products the two machines write the same rows. -/
theorem AgreeOnInputs.interpolationStage_eq (h : AgreeOnInputs s₁ s₂) (hxv : s₁.ctx.XV = s₂.ctx.XV)
    (hicr : s₁.ctx.ICR = s₂.ctx.ICR) (hocr : s₁.ctx.OCR = s₂.ctx.OCR) (t₁ : State)
    (ht₁ : interpolationStage s₁ = .ok t₁) :
    ∃ rows, t₁ = s₁.withCtx (s₁.ctx.setOVM rows) ∧ interpolationStage s₂ = .ok (s₂.withCtx (s₂.ctx.setOVM rows)) ∧
      ∀ m len, s₁.ctx.ON = .written m → s₁.ctx.LN = .written len →
        rows.length = min m.toNat 256 ∧ ∀ row ∈ rows, row.length = len.toNat := by
  obtain ⟨n, m, len, columns, xs, zs, ics, ocs, A, rows, ht, hx, hin, hon, hln, hcolumns, hxs, hzs, hics, hocs, hA,
    hrows, rfl⟩ := (interpolationStage_eq_ok s₁ t₁).1 ht₁
  have hA' : s₂.arith = .ok A := by rwa [State.arith, ← h.mult, ← h.invt]
  refine ⟨rows, rfl, (interpolationStage_eq_ok s₂ _).2 ⟨n, m, len, columns, xs, zs, ics, ocs, A, rows, h.trdy ▸ ht,
    hxv ▸ hx, h.count_in ▸ hin, h.count_out ▸ hon, h.length ▸ hln, h.columns_IVM n len hin hln ▸ hcolumns,
    h.first_XP n hin ▸ hxs, h.first_ZP m hon ▸ hzs, hicr ▸ hics, hocr ▸ hocs, hA', hrows, rfl⟩,
    fun m' len' hon' hln' => ?_⟩
  obtain rfl : m = m' := Loc.written.inj (hon.symm.trans hon')
  obtain rfl : len = len' := Loc.written.inj (hln.symm.trans hln')
  exact rows_shape s₁ A xs ics zs ocs columns rows _ _ _ hcolumns hzs hocs hrows

end

/-- Settles O33: the Cross-Product Stage reads and overwrites alike in both machines, after which the Interpolation
Engine reads alike too. -/
theorem transformIsPure : Obligations.TransformIsPure := by
  intro s₁ s₂ htrdy hmult hinvt hin hon hln hxp hzp hivm t₁ h₁
  have hagree : AgreeOnInputs s₁ s₂ := ⟨htrdy, hmult, hinvt, hin, hon, hln, hxp, hzp, hivm⟩
  obtain ⟨u₁, hcross, hstage⟩ := (bind_eq_ok _ _ t₁).1 ((finish_eq_next _ t₁).1 h₁)
  obtain ⟨ics, ocs, rfl, hcross₂⟩ := hagree.crossProductStage_eq u₁ hcross
  have hagree' : AgreeOnInputs (s₁.withCtx (s₁.ctx.setCross ics ocs).setXV)
      (s₂.withCtx (s₂.ctx.setCross ics ocs).setXV) := { hagree with }
  obtain ⟨rows, rfl, hstage₂, hshape⟩ := hagree'.interpolationStage_eq rfl rfl rfl t₁ hstage
  have h₂ : (crossProductStage s₂ >>= interpolationStage) = .ok _ := (bind_eq_ok _ _ _).2 ⟨_, hcross₂, hstage₂⟩
  refine ⟨_, congrArg finish h₂, rfl, rfl, fun m len hm hl i u hi hi' hu => ?_⟩
  obtain ⟨hlen, hrow⟩ := hshape m len hm hl
  have hle : ∀ row ∈ rows, row.length ≤ 2 ^ 32 := fun row hmem => (hrow row hmem).trans_le len.isLt.le
  have hi : i < rows.length := by omega
  have hu : u < rows[i].length := by rwa [hrow _ (List.getElem_mem hi)]
  exact (read_writeRows_inside rows _ i u hi hu hle).trans (read_writeRows_inside rows _ i u hi hu hle).symm

/-! #### The properties of R149 -/

theorem read_of_transform (s t : State) (xs zs : List Byte) (len : Nat) (v : Nat → Nat → Byte) (hs : s.TablesFinal)
    (hr : s.XprodReady xs zs) (hv : s.ValuesReady xs.length len v) (h : exec .transform s = .next t) (i u : Nat)
    (hi : i < zs.length) (hu : u < len) :
    t.ctx.OVM.read i u = .written (interpolant xs (columnOf v xs.length u) (zs.getD i 0)) := by
  obtain rfl := Host.Outcome.next.inj ((exec_transform_of_ready s xs zs len v hs hr hv).symm.trans h)
  exact read_interpolantRows_inside xs zs len v _ i u (valuesReady_length_le s _ _ _ hv) hi hu

/-- Settles O35: at an input point the interpolant is the input value. -/
theorem coincidentOutputCopiesInput : Obligations.CoincidentOutputCopiesInput := by
  intro s t xs zs len v hs hr hv h i c hi hc heq u hu
  rw [read_of_transform s t xs zs len v hs hr hv h i u hi hu, List.getD_eq_getElem zs 0 hi, heq,
    interpolant_at_input xs _ hr.distinct c hc, columnOf_getD v _ u c hc, hv.values c hc u hu]

/-- A polynomial with one coefficient is constant. -/
theorem interpolant_singleton (x z : Byte) (vs : List Byte) : interpolant [x] vs z = vs.getD 0 0 := by
  obtain ⟨cs, hlen, hcs⟩ := exists_polyEval_eq_interpolant [x] vs (List.nodup_singleton x)
  obtain ⟨c, rfl⟩ := List.length_eq_one_iff.1 hlen
  have hconstant (y : Byte) : polyEval [c] y = c := by
    have heval : polyEval [c] y = c ^^^ gfMul y 0 := rfl
    rw [heval, gfMul_zero_right]
    exact BitVec.xor_zero
  calc interpolant [x] vs z = interpolant [x] vs x := by rw [← hcs, ← hcs, hconstant, hconstant]
    _ = vs.getD 0 0 := interpolant_at_input [x] vs (List.nodup_singleton x) 0 Nat.one_pos

/-- Settles O36: through one input there is a constant polynomial only. -/
theorem singleInputIsCopied : Obligations.SingleInputIsCopied := by
  intro s t x zs len v hs hr hv h i hi u hu
  rw [read_of_transform s t [x] zs len v hs hr hv h i u hi hu, interpolant_singleton,
    columnOf_getD v [x].length u 0 Nat.one_pos, hv.values 0 Nat.one_pos u hu]

/-- Settles O37: the interpolant is a polynomial at every point, inputs and outputs alike. -/
theorem outputIsTheInterpolatingPolynomial : Obligations.OutputIsTheInterpolatingPolynomial := by
  intro s t xs zs len v hs hr hv h u hu
  obtain ⟨cs, hlen, hcs⟩ := exists_polyEval_eq_interpolant xs (columnOf v xs.length u) hr.distinct
  refine ⟨cs, hlen, fun j hj => ?_, fun i hi => ?_⟩
  · rw [hcs, interpolant_at_input xs _ hr.distinct j hj, columnOf_getD v _ u j hj]
  · rw [read_of_transform s t xs zs len v hs hr hv h i u hi hu, hcs, List.getD_eq_getElem zs 0 hi]

/-- Settles O39: the shares lie on the first machine's polynomial, and are enough to fix it. -/
theorem reconstructionRecoversTheSecret : Obligations.ReconstructionRecoversTheSecret := by
  intro s₁ t₁ s₂ t₂ xs₁ zs₁ xs₂ zs₂ len v₁ v₂ hs₁ hr₁ hv₁ h₁ hs₂ hr₂ hv₂ h₂ hle hshares k hk u hu
  have hvalues (j : Nat) (hj : j < xs₂.length) : (columnOf v₂ xs₂.length u).getD j 0 =
      interpolant xs₁ (columnOf v₁ xs₁.length u) xs₂[j] := by
    obtain ⟨i, hi, hpoint, hbyte⟩ := hshares j hj
    have hread := hbyte u hu
    rw [hv₂.values j hj u hu, read_of_transform s₁ t₁ xs₁ zs₁ len v₁ hs₁ hr₁ hv₁ h₁ i u hi hu, ← hpoint] at hread
    rw [columnOf_getD v₂ _ u j hj, Loc.written.inj hread, List.getD_eq_getElem xs₂ 0 hj]
  have hout : t₂.ctx.OVM.read k u = .written (interpolant xs₁ (columnOf v₁ xs₁.length u) (zs₂.getD k 0)) := by
    rw [read_of_transform s₂ t₂ xs₂ zs₂ len v₂ hs₂ hr₂ hv₂ h₂ k u hk hu,
      interpolant_of_values_on_interpolant xs₁ _ xs₂ _ hr₁.distinct hr₂.distinct hle hvalues]
  refine ⟨hout, fun hsecret => ?_⟩
  have hpos : 0 < xs₁.length := List.length_pos_iff.2 hr₁.nonempty
  rw [hout, hsecret, List.getD_eq_getElem xs₁ 0 hpos, interpolant_at_input xs₁ _ hr₁.distinct 0 hpos,
    columnOf_getD v₁ _ u 0 hpos, hv₁.values 0 hpos u hu]

end Sys2Proof.Proofs

/-! ### Proofs of the host access family: the commands that load the registers and the input memory, and the read of the
output memory

What an operand in range hands on and what one out of range faults with comes first, once for each operand form; the
writes then rest on the rules of the register files and the value memories. -/

namespace Sys2Proof.Proofs

open Sys2Proof.Machine Sys2Proof.Laws

/-! #### The operand forms (30_encoding.md R74) -/

/-- A count in range goes on to the rest of the command. -/
theorem finish_countOperand_of_le (n : Nat) (f : BitVec 9 → Except Fault State) (hn : n ≤ 256) :
    finish (countOperand n >>= f) = finish (f (BitVec.ofNat 9 n)) := by
  rw [(countOperand_eq_ok n _).2 ⟨hn, rfl⟩, ok_bind]

theorem finish_countOperand_of_gt (n : Nat) (f : BitVec 9 → Except Fault State) (hn : n > 256) :
    finish (countOperand n >>= f) = .fault .countRange := by
  rw [(countOperand_eq_error n _).2 ⟨hn, rfl⟩, error_bind, finish_error]

/-- A length in range goes on to the rest of the command. -/
theorem finish_lengthOperand_of_le (p : Params) (n : Nat) (f : BitVec 32 → Except Fault State) (hn : n ≤ p.lnMax.val) :
    finish (lengthOperand p n >>= f) = finish (f (BitVec.ofNat 32 n)) := by
  rw [(lengthOperand_eq_ok p n _).2 ⟨hn, rfl⟩, ok_bind]

theorem finish_lengthOperand_of_gt (p : Params) (n : Nat) (f : BitVec 32 → Except Fault State) (hn : n > p.lnMax.val) :
    finish (lengthOperand p n >>= f) = .fault .lenRange := by
  rw [(lengthOperand_eq_error p n _).2 ⟨hn, rfl⟩, error_bind, finish_error]

/-- An offset in range goes on to the rest of the command. -/
theorem finish_offsetOperand_of_lt (p : Params) (t : Nat) (f : Nat → Except Fault State) (ht : t < p.lnMax.val) :
    finish (offsetOperand p t >>= f) = finish (f t) := by
  rw [(offsetOperand_eq_ok p t t).2 ⟨ht, rfl⟩, ok_bind]

theorem finish_offsetOperand_of_ge (p : Params) (t : Nat) (f : Nat → Except Fault State) (ht : t ≥ p.lnMax.val) :
    finish (offsetOperand p t >>= f) = .fault .lenRange := by
  rw [(offsetOperand_eq_error p t _).2 ⟨ht, rfl⟩, error_bind, finish_error]

/-! #### WRIV (R166) -/

/-- Settles O21: the byte goes to a key that no other row and offset has, since every offset is below `2^32`. -/
theorem wrivWritesOneByte : Obligations.WrivWritesOneByte := by
  intro j v t s
  refine ⟨fun ht => ?_, finish_offsetOperand_of_ge s.params t _, fun _ => ofWord_encode (.wriv j v t)⟩
  have hspace : t < 2 ^ 32 := ht.trans s.params.lnMax.isLt
  exact ⟨s.withCtx (s.ctx.setIVM j t v), (exec_wriv_eq_next j v t s _).2 ⟨ht, rfl⟩, rfl,
    read_write_same s.ctx.IVM j t v,
    fun row off hoff hother => read_write_other s.ctx.IVM j t row off v hspace hoff hother⟩

/-! #### SETIN, SETON, SETLN (R161 to R163) -/

/-- Settles O16: the count decides between the write and the fault. -/
theorem setinWritesIN : Obligations.SetinWritesIN := by
  intro n s
  exact ⟨finish_countOperand_of_le n _, finish_countOperand_of_gt n _, fun _ => ofWord_encode (.setin n)⟩

/-- Settles O17: the count decides between the write and the fault. -/
theorem setonWritesON : Obligations.SetonWritesON := by
  intro n s
  exact ⟨finish_countOperand_of_le n _, finish_countOperand_of_gt n _, fun _ => ofWord_encode (.seton n)⟩

/-- Settles O18: the length decides between the write and the fault; the write is to `LN` alone. -/
theorem setlnWritesLN : Obligations.SetlnWritesLN := by
  intro n s
  exact ⟨finish_lengthOperand_of_le s.params n _, finish_lengthOperand_of_gt s.params n _,
    fun _ => ofWord_encode (.setln n)⟩

/-! #### WRXP, WRZP (R164, R165) -/

/-- Settles O19: one write to the register file `XP`. -/
theorem wrxpWritesOneInputPoint : Obligations.WrxpWritesOneInputPoint := by
  intro j x s
  exact ⟨⟨_, exec_wrxp j x s, rfl, regFile_write_same s.ctx.XP j x, fun k => regFile_write_other s.ctx.XP j k x⟩,
    ofWord_encode (.wrxp j x)⟩

/-- Settles O20: one write to the register file `ZP`. -/
theorem wrzpWritesOneOutputPoint : Obligations.WrzpWritesOneOutputPoint := by
  intro i z s
  exact ⟨⟨_, exec_wrzp i z s, rfl, regFile_write_same s.ctx.ZP i z, fun k => regFile_write_other s.ctx.ZP i k z⟩,
    ofWord_encode (.wrzp i z)⟩

/-! #### RDOV (R167) -/

/-- Settles O22: the offset comes first, then the byte of `OVM` answers or is unwritten. -/
theorem rdovRespondsOneByte : Obligations.RdovRespondsOneByte := by
  intro i t s
  refine ⟨fun v ht hv => ?_, fun ht hu => ?_, finish_offsetOperand_of_ge s.params t _,
    fun _ => ofWord_encode (.rdov i t)⟩
  · exact (finish_offsetOperand_of_lt s.params t _ ht).trans (finish_respond_of_written s _ v hv)
  · exact (finish_offsetOperand_of_lt s.params t _ ht).trans (finish_respond_of_unwritten s _ hu)

end Sys2Proof.Proofs

/-! ### Proofs of the exceptions family: idle steps, the reasons of a fault, and what one context sees of the others

A command is a function of its own context and the shared tables: it commutes with every change of its surroundings,
which are the other contexts and the pending words. From this follow the frame of a step and, step by step, that a
context's run is the run of a machine of its own. -/

namespace Sys2Proof.Proofs

open Sys2Proof.Machine Sys2Proof.Laws

/-! #### A command and its surroundings (60_exceptions.md R195) -/

/-- The machine with other contexts and other pending words around the context served. -/
def withSurroundings (b a : List Context) (q : List (Nat × Word)) (s : State) : State :=
  { s with before := b, after := a, issue := q }

/-- An outcome with its next state replaced. -/
def mapNext (f : State → State) : Host.Outcome State Fault Refusal → Host.Outcome State Fault Refusal
  | .next t => .next (f t)
  | .fault r => .fault r
  | .refused r => .refused r

theorem finish_map (f : State → State) (e : Except Fault State) : finish (f <$> e) = mapNext f (finish e) := by
  cases e <;> rfl

theorem crossProductStage_withSurroundings (b a : List Context) (q : List (Nat × Word)) (s : State) :
    crossProductStage (withSurroundings b a q s) = withSurroundings b a q <$> crossProductStage s := by
  simp only [crossProductStage, map_bind]
  rfl

theorem interpolationStage_withSurroundings (b a : List Context) (q : List (Nat × Word)) (s : State) :
    interpolationStage (withSurroundings b a q s) = withSurroundings b a q <$> interpolationStage s := by
  simp only [interpolationStage, map_bind]
  rfl

/-- Both stages in a row, as TRANSFORM runs them. -/
theorem both_stages_withSurroundings (b a : List Context) (q : List (Nat × Word)) (s : State) :
    (crossProductStage (withSurroundings b a q s) >>= interpolationStage) =
      withSurroundings b a q <$> (crossProductStage s >>= interpolationStage) := by
  rw [crossProductStage_withSurroundings, map_bind, bind_map_left]
  exact congrArg _ (funext (interpolationStage_withSurroundings b a q))

/-- Whatever surrounds the context served, the command answers the same, with these surroundings in place. -/
theorem exec_withSurroundings (i : Instr) (b a : List Context) (q : List (Nat × Word)) (s : State) :
    exec i (withSurroundings b a q s) = mapNext (withSurroundings b a q) (exec i s) := by
  cases i with
  | tinit =>
    cases ht : s.TRDY with
    | true => rw [exec_tinit_of_ready s ht, exec_tinit_of_ready (withSurroundings b a q s) ht]; rfl
    | false => rw [exec_tinit_of_not_ready s ht, exec_tinit_of_not_ready (withSurroundings b a q s) ht]; rfl
  | wrxp j x => rfl
  | wrzp j z => rfl
  | xprod => exact (congrArg finish (crossProductStage_withSurroundings b a q s)).trans (finish_map _ _)
  | interp => exact (congrArg finish (interpolationStage_withSurroundings b a q s)).trans (finish_map _ _)
  | transform => exact (congrArg finish (both_stages_withSurroundings b a q s)).trans (finish_map _ _)
  -- each of the others is a chain of reads that ends in a new context served
  | _ =>
    simp only [exec, execGfadd, execGfmul, execGfinv, execSetin, execSeton, execSetln, execWriv, execRdov, execRdic,
      execRdoc, ← finish_map, map_bind]
    rfl

/-- TINIT always completes, leaves the tables ready, and the parameters as they are (40_field_arithmetic.md R101). -/
theorem exec_tinit_answers (s : State) :
    ∃ t, exec .tinit s = .next t ∧ t.TRDY = true ∧ t.params = s.params := by
  cases ht : s.TRDY with
  | true => exact ⟨s, exec_tinit_of_ready s ht, ht, rfl⟩
  | false => exact ⟨_, exec_tinit_of_not_ready s ht, rfl, rfl⟩

theorem exec_keeps_params (i : Instr) (s t : State) (h : exec i s = .next t) : t.params = s.params := by
  by_cases hi : i = .tinit
  · subst hi
    obtain ⟨u, hu, -, hparams⟩ := exec_tinit_answers s
    cases hu.symm.trans h
    exact hparams
  · obtain ⟨k, rfl⟩ := exec_replaces_ctx i s t hi h
    rfl

/-- From `s` to `t` the context served may change, and the tables, and nothing else. -/
structure KeepsOthers (s t : State) : Prop where
  before : t.before = s.before
  after : t.after = s.after
  issue : t.issue = s.issue
  params : t.params = s.params

theorem KeepsOthers.contexts_length {s t : State} (h : KeepsOthers s t) : t.contexts.length = s.contexts.length := by
  simp [State.contexts, h.before, h.after]

theorem KeepsOthers.contexts_served {s t : State} (h : KeepsOthers s t) :
    t.contexts[s.before.length]? = some t.ctx := by
  simp [State.contexts, h.before]

theorem KeepsOthers.contexts_other {s t : State} (h : KeepsOthers s t) (q : Nat) (hq : q ≠ s.before.length) :
    t.contexts[q]? = s.contexts[q]? := by
  rw [State.contexts, State.contexts, h.before, h.after]
  grind

/-- A command, put back into its own surroundings, leaves them as they are. -/
theorem exec_keepsOthers (i : Instr) (s t : State) (h : exec i s = .next t) : KeepsOthers s t := by
  have hmap := exec_withSurroundings i s.before s.after s.issue s
  have hkeep : t = withSurroundings s.before s.after s.issue t :=
    Host.Outcome.next.inj (h.symm.trans (hmap.trans (congrArg _ h)))
  rw [hkeep]
  exact ⟨rfl, rfl, rfl, exec_keeps_params i s t h⟩

/-- No command writes the record of a fault: only the step does (60_exceptions.md R184). -/
theorem exec_keeps_fault (i : Instr) (s t : State) (h : exec i s = .next t) : t.ctx.fault = s.ctx.fault := by
  rcases exec_eq_next i s t h with ⟨-, ⟨-, rfl⟩ | ⟨-, rfl⟩⟩ | ⟨-, _, rfl⟩ | ⟨_, -, -, rfl⟩ | ⟨_, -, -, rfl⟩ |
    ⟨_, -, -, rfl⟩ | ⟨_, _, -, rfl⟩ | ⟨_, _, -, rfl⟩ | ⟨_, _, _, -, -, rfl⟩ | ⟨-, hx⟩ | ⟨-, hp⟩ | ⟨-, u, hx, hp⟩
  -- TINIT, a responding command, and the six commands with which the host writes one location
  iterate 9 rfl
  · obtain ⟨_, _, rfl⟩ := crossProductStage_replaces_cross s t hx
    rfl
  · obtain ⟨_, rfl⟩ := interpolationStage_replaces_OVM s t hp
    rfl
  · obtain ⟨_, _, _, rfl⟩ := both_stages_replace_cross_and_OVM s u t hx hp
    rfl

/-- Settles O47: the surroundings pass through a command, its own and any others. -/
theorem commandSeesItsOwnContextOnly : Obligations.CommandSeesItsOwnContextOnly := by
  intro i s b a q
  have hmap := exec_withSurroundings i b a q s
  refine ⟨fun t h => ?_, fun r h => hmap.trans (congrArg _ h)⟩
  have hkeep := exec_keepsOthers i s t h
  exact ⟨hkeep.before, hkeep.after, hkeep.issue, hkeep.params, hmap.trans (congrArg _ h)⟩

/-! #### The outcome of a word -/

/-- What the word presented does to the context served: the command it decodes to, or the fault of a reserved word
(30_encoding.md R77). -/
def execWord (w : Word) (s : State) : Host.Outcome State Fault Refusal :=
  match decode w with
  | .ok i => exec i s
  | .error _ => .fault .illegalCmd

theorem step_of_present (s s' : State) (w : Word) (hp : s.present = .command w s') :
    step s = conclude s' (execWord w s') := by
  cases hd : decode w with
  | ok i => rw [step_of_decode_ok s s' w i hp hd, execWord, hd]
  | error e => rw [step_of_decode_error s s' w e hp hd, execWord, hd, conclude]

theorem execWord_eq_next (w : Word) (s t : State) (h : execWord w s = .next t) :
    ∃ i, decode w = .ok i ∧ exec i s = .next t := by
  cases hd : decode w with
  | ok i => exact ⟨i, rfl, by rwa [execWord, hd] at h⟩
  | error e => rw [execWord, hd] at h; cases h

theorem execWord_withSurroundings (w : Word) (b a : List Context) (q : List (Nat × Word)) (s : State) :
    execWord w (withSurroundings b a q s) = mapNext (withSurroundings b a q) (execWord w s) := by
  cases hd : decode w with
  | ok i => simpa only [execWord, hd] using exec_withSurroundings i b a q s
  | error e => simp only [execWord, hd, mapNext]

theorem conclude_eq_next (s t : State) (o : Host.Outcome State Fault Refusal) (h : conclude s o = .next t) :
    o = .next t ∨ ∃ r, o = .fault r ∧ t = s.withCtx (s.ctx.recordFault r) := by
  cases o with
  | next u => exact .inl h
  | fault r => exact .inr ⟨r, rfl, stopContext_eq_next s t r h⟩
  | refused r => cases h

/-! #### What a step leaves alone -/

theorem conclude_keepsOthers (w : Word) (s t : State) (h : conclude s (execWord w s) = .next t) : KeepsOthers s t := by
  rcases conclude_eq_next s t _ h with hnext | ⟨r, -, rfl⟩
  · obtain ⟨i, -, hexec⟩ := execWord_eq_next w s t hnext
    exact exec_keepsOthers i s t hexec
  · exact ⟨rfl, rfl, rfl, rfl⟩

/-- Serving a port and then performing its word leaves every other context as it is. -/
theorem step_keeps_other_contexts (s s' t : State) (port : Nat) (rest : List (Nat × Word))
    (hserves : s.Serves s' port rest) (hkeep : KeepsOthers s' t) :
    t.contexts.length = s.contexts.length ∧ ∀ q, q ≠ port → t.contexts[q]? = s.contexts[q]? := by
  obtain rfl := hserves.place
  rw [← hserves.contexts]
  exact ⟨hkeep.contexts_length, hkeep.contexts_other⟩

/-- Settles O48: the word is the one presented, and its outcome replaces the context served. -/
theorem stepLeavesOtherContexts : Obligations.StepLeavesOtherContexts := by
  intro s t pre post port w hq hpre hport h
  obtain ⟨s', hp, hserves⟩ := present_first_running s pre post port w hq hpre hport
  rw [step_of_present s s' w hp] at h
  exact step_keeps_other_contexts s s' t port _ hserves (conclude_keepsOthers w s' t h)

/-! #### Which word a step performs -/

theorem isFaulted_eq_true_iff (s : State) (port : Nat) : s.isFaulted port = true ↔ s.Stopped port := by
  cases hk : s.contexts[port]? with
  | none => simp [State.isFaulted, State.Stopped, hk]
  | some k => simp [State.isFaulted, State.Stopped, hk, Option.isSome_iff_exists]

theorem running_of_not_isFaulted (s : State) (port : Nat) (k : Context) (hk : s.contexts[port]? = some k)
    (h : s.isFaulted port = false) : s.Running port := by
  rw [isFaulted_eq s port k hk, Option.isSome_eq_false_iff, Option.isNone_iff_eq_none] at h
  exact ⟨k, hk, h⟩

/-- A step that answers a next state is idle, or serves the first port that goes on and performs its word. -/
theorem step_serves (s t : State) (h : step s = .next t) :
    t = s ∨ ∃ pre port w post s', s.issue = pre ++ (port, w) :: post ∧ (∀ c ∈ pre, s.Stopped c.1) ∧
      s.Running port ∧ s.Serves s' port (pre ++ post) ∧ conclude s' (execWord w s') = .next t := by
  rcases present_cases s with ⟨-, hp⟩ | ⟨pre, port, w, post, hq, hpre, hport, ⟨-, hp⟩ | ⟨s', hsel, hp⟩⟩
  · rw [step, hp] at h
    exact .inl (proceed_eq_next s t h)
  · rw [step, hp] at h
    cases h
  · have hserves := serves_of_select s s' _ port hsel
    rw [step_of_present s s' w hp] at h
    exact .inr ⟨pre, port, w, post, s', hq, fun c hc => (isFaulted_eq_true_iff s c.1).1 (hpre c hc),
      running_of_not_isFaulted s port _ hserves.served hport, hserves, h⟩

theorem not_running_of_fault (s : State) (port : Nat) (k : Context) (r : Fault) (hk : s.contexts[port]? = some k)
    (hr : k.fault = some r) : ¬ s.Running port := by
  rintro ⟨k', hk', hrun⟩
  obtain rfl : k = k' := Option.some.inj (hk.symm.trans hk')
  rw [hr] at hrun
  cases hrun

/-- Settles O8: the port served goes on, so it is not the port of the stopped context. -/
theorem faultIsNeverCleared : Obligations.FaultIsNeverCleared := by
  intro s t port k r h hk hr
  rcases step_serves s t h with rfl | ⟨pre, p, w, post, s', -, -, hrun, hserves, hconclude⟩
  · exact hk
  · have hne : port ≠ p := by
      rintro rfl
      exact not_running_of_fault s port k r hk hr hrun
    obtain ⟨-, hother⟩ := step_keeps_other_contexts s s' t p _ hserves (conclude_keepsOthers w s' t hconclude)
    rw [hother port hne, hk]

/-- Settles O7: no word can be taken, so the step answers whether any context goes on. -/
theorem idleStepKeepsAllState : Obligations.IdleStepKeepsAllState := by
  intro s hq
  have htake : takeIssued s.isFaulted s.issue = none :=
    (takeIssued_eq_none _ _).2 fun c hc => isFaulted_of_stopped s c.1 (hq c hc)
  have hstep : step s = s.proceed := by simp only [step, State.present, htake]
  rw [← not_exists, exists_running_iff, hstep]
  rcases proceed_cases s with ⟨hnext, hrun⟩ | ⟨r, hr, hall, hfault⟩
  · exact ⟨fun _ => hnext, fun hnone => absurd hrun hnone⟩
  · exact ⟨fun ⟨k, hk, hrun⟩ => absurd hrun (hall k hk), fun _ => ⟨r, hr, hfault⟩⟩

/-! #### TINIT for every context (60_exceptions.md R196) -/

/-- Settles O50: TINIT keeps the invariant, and serving a port keeps the tables. -/
theorem tinitServesEveryContext : Obligations.TinitServesEveryContext := by
  intro s t u port hs h hsel
  have hserves : t.Serves u port t.issue := serves_of_select t u t.issue port hsel
  have hu : u.Inv := inv_of_serves t u port _ (exec_keeps_inv .tinit s t hs h) hserves
  obtain ⟨t', hexec, hbuilt, -⟩ := exec_tinit_answers s
  obtain rfl : t' = t := Host.Outcome.next.inj (hexec.symm.trans h)
  have hready : u.TRDY = true := hserves.trdy.trans hbuilt
  exact ⟨hready, hu.ready hready⟩

/-! #### The reasons of the two stages (60_exceptions.md R185) -/

/-- Under the invariant the reasons of the Cross-Product Stage are those of 41_cross_product.md R123. -/
theorem crossProductStage_fault_reason (s : State) (r : Fault) (hs : s.Inv) (h : crossProductStage s = .error r) :
    r = .tablesNotReady ∨ r = .unwritten ∨ r = .inZero ∨ r = .dupPoint := by
  rcases (crossProductStage_eq_error s r).1 h with ⟨-, rfl⟩ | ⟨-, -, rfl⟩ |
    ⟨_, _, ht, -, -, ⟨-, rfl⟩ | ⟨-, -, rfl⟩ | ⟨_, _, -, -, -, ⟨-, rfl⟩ | ⟨-, hmul⟩⟩⟩
  · exact .inl rfl
  · exact .inr (.inl rfl)
  · exact .inr (.inr (.inl rfl))
  · exact .inr (.inl rfl)
  · exact .inr (.inr (.inr rfl))
  · rw [mulOf_final s (hs.ready ht).1] at hmul
    cases hmul

/-- Columns that are read hold the bytes that `State.ValuesReady` asks for. -/
theorem valuesReady_of_columns (s : State) (n : Nat) (len : BitVec 32) (columns : List (List Byte))
    (hln : s.ctx.LN = .written len) (h : s.ctx.IVM.columns n len.toNat = .ok columns) :
    ∃ v, s.ValuesReady n len.toNat v := by
  have hwritten (j t : Nat) : ∃ b, j < n → t < len.toNat → s.ctx.IVM.read j t = .written b := by
    by_cases hjt : j < n ∧ t < len.toNat
    · obtain ⟨b, hb⟩ := read_of_columns_eq_ok _ _ _ j t columns h hjt.1 hjt.2
      exact ⟨b, fun _ _ => hb⟩
    · exact ⟨0, fun hj ht => absurd ⟨hj, ht⟩ hjt⟩
  choose v hv using hwritten
  exact ⟨v, ⟨len, hln, rfl⟩, fun j hj t ht => hv j t hj ht⟩

/-- With the flags set and every input byte written the Interpolation Engine completes under the invariant: the cross
products are valid, so no `inv(0)` arises (42_interpolation.md R146). -/
theorem interpolationStage_of_columns (s : State) (n : BitVec 9) (len : BitVec 32) (columns : List (List Byte))
    (hs : s.Inv) (ht : s.TRDY = true) (hxv : s.ctx.XV = true) (hin : s.ctx.IN = .written n)
    (hln : s.ctx.LN = .written len) (h : s.ctx.IVM.columns n.toNat len.toNat = .ok columns) :
    ∃ t, interpolationStage s = .ok t := by
  obtain ⟨-, xs, zs, hcin, hcon, hne, hxp, hzp, hnodup, hicr, hocr⟩ := (hs.contexts _ (ctx_mem_contexts s)).cross hxv
  obtain rfl : n = .ofNat 9 xs.length := Loc.written.inj (hin.symm.trans hcin)
  rw [count_toNat_of_holds _ _ hxp] at h
  obtain ⟨v, hv⟩ := valuesReady_of_columns s _ len columns hln h
  exact ⟨_, interpolationStage_of_ready s xs zs _ v (hs.ready ht) ⟨ht, hcin, hcon, hne, hxp, hzp, hnodup⟩ hv hxv
    hicr hocr⟩

/-- Under the invariant the reasons of the Interpolation Engine are those of 42_interpolation.md R147. -/
theorem interpolationStage_fault_reason (s : State) (r : Fault) (hs : s.Inv) (h : interpolationStage s = .error r) :
    (s.TRDY = false ∧ r = .tablesNotReady) ∨ (s.ctx.XV = false ∧ r = .staleCross) ∨ r = .unwritten := by
  have hstage := h
  simp only [interpolationStage, bind_eq_error, requireTables_eq_error, requireTables_eq_ok, requireCross_eq_error,
    requireCross_eq_ok, get_eq_error, get_eq_ok] at h
  rcases h with h | ⟨-, ht, h | ⟨-, hxv, ⟨-, rfl⟩ | ⟨n, hin, ⟨-, rfl⟩ | ⟨m, -, ⟨-, rfl⟩ | ⟨len, hln, hcolumns |
    ⟨columns, hcolumns, -⟩⟩⟩⟩⟩⟩
  · exact .inl h
  · exact .inr (.inl h)
  iterate 3 exact .inr (.inr rfl)
  · exact .inr (.inr (columns_eq_error _ _ _ r hcolumns))
  · obtain ⟨t, hok⟩ := interpolationStage_of_columns s n len columns hs ht hxv hin hln hcolumns
    rw [hok] at hstage
    cases hstage

/-- In TRANSFORM the Interpolation Engine finds the tables ready and `XV = 1` (42_interpolation.md R148). -/
theorem both_stages_fault_reason (s : State) (r : Fault) (hs : s.Inv)
    (h : (crossProductStage s >>= interpolationStage) = .error r) :
    r = .tablesNotReady ∨ r = .unwritten ∨ r = .inZero ∨ r = .dupPoint := by
  rcases (bind_eq_error _ _ r).1 h with hcross | ⟨u, hcross, hstage⟩
  · exact crossProductStage_fault_reason s r hs hcross
  · have hu := crossProductStage_keeps_inv s u hs hcross
    obtain ⟨ics, ocs, rfl⟩ := crossProductStage_replaces_cross s u hcross
    rcases interpolationStage_fault_reason _ r hu hstage with ⟨-, rfl⟩ | ⟨hxv, -⟩ | rfl
    · exact .inl rfl
    · cases hxv
    · exact .inr (.inl rfl)

/-! #### The reasons of a command -/

/-- A command that responds a location can fault in one way only (00_scope.md R17). -/
theorem respond_fault_reason (s : State) (l : Loc Byte) (r : Fault)
    (h : (do let v ← l.get; return s.respond v) = Except.error r) : r = .unwritten := by
  rcases (bind_eq_error _ _ r).1 h with hget | ⟨_, -, ⟨⟩⟩
  exact ((get_eq_error l r).1 hget).2

theorem gfmul_fault_reason (a b : Byte) (s : State) (r : Fault) (hs : s.Inv) (h : exec (.gfmul a b) s = .fault r) :
    r = .tablesNotReady := by
  cases ht : s.TRDY with
  | false => exact Host.Outcome.fault.inj (h.symm.trans (finish_requireTables_of_not_ready s _ ht))
  | true => cases (exec_gfmul_of_ready a b s hs ht).symm.trans h

theorem gfinv_fault_reason (a : Byte) (s : State) (r : Fault) (hs : s.Inv) (h : exec (.gfinv a) s = .fault r) :
    r = .tablesNotReady ∨ (a = 0 ∧ r = .invZero) := by
  cases ht : s.TRDY with
  | false => exact .inl (Host.Outcome.fault.inj (h.symm.trans (finish_requireTables_of_not_ready s _ ht)))
  | true =>
    by_cases ha : a = 0
    · subst ha
      exact .inr ⟨rfl, Host.Outcome.fault.inj (h.symm.trans (exec_gfinv_zero_of_ready s ht))⟩
    · obtain ⟨v, -, hv⟩ := exists_gfInv a ha
      cases (exec_gfinv_of_ready a v s hs ht hv).symm.trans h

theorem exec_ne_refused (i : Instr) (s : State) (r : Refusal) : exec i s ≠ .refused r := by
  cases i with
  | tinit =>
    obtain ⟨t, hexec, -⟩ := exec_tinit_answers s
    rw [hexec]
    exact nofun
  | wrxp j x => exact nofun
  | wrzp j z => exact nofun
  -- every other command is `finish` of what it computes
  | _ => exact finish_ne_refused _ r

/-- Settles O46: command by command, the reasons of what it reads in turn. -/
theorem reasonsOfACommand : Obligations.ReasonsOfACommand := by
  intro i s hs
  refine ⟨fun r h => ?_, exec_ne_refused i s⟩
  cases i with
  | tinit =>
    obtain ⟨t, hexec, -⟩ := exec_tinit_answers s
    cases hexec.symm.trans h
  | gfadd a b =>
    rcases (bind_eq_error _ _ r).1 ((finish_eq_fault _ r).1 h) with hready | ⟨_, -, ⟨⟩⟩
    obtain ⟨-, rfl⟩ := (requireTables_eq_error s r).1 hready
    exact .inl ⟨a, b, rfl⟩
  | gfmul a b =>
    obtain rfl := gfmul_fault_reason a b s r hs h
    exact .inr (.inl ⟨a, b, rfl⟩)
  | gfinv a =>
    rcases gfinv_fault_reason a s r hs h with rfl | ⟨rfl, rfl⟩
    · exact .inr (.inr (.inl ⟨a, rfl⟩))
    · exact rfl
  | setin n =>
    rcases (bind_eq_error _ _ r).1 ((finish_eq_fault _ r).1 h) with hcount | ⟨_, -, ⟨⟩⟩
    obtain ⟨hn, rfl⟩ := (countOperand_eq_error n r).1 hcount
    exact ⟨n, hn, .inl rfl⟩
  | seton n =>
    rcases (bind_eq_error _ _ r).1 ((finish_eq_fault _ r).1 h) with hcount | ⟨_, -, ⟨⟩⟩
    obtain ⟨hn, rfl⟩ := (countOperand_eq_error n r).1 hcount
    exact ⟨n, hn, .inr rfl⟩
  | setln n =>
    rcases (bind_eq_error _ _ r).1 ((finish_eq_fault _ r).1 h) with hlength | ⟨_, -, ⟨⟩⟩
    obtain ⟨hn, rfl⟩ := (lengthOperand_eq_error s.params n r).1 hlength
    exact .inl ⟨n, hn, rfl⟩
  | wrxp j x => cases h
  | wrzp j z => cases h
  | wriv j v t =>
    rcases (bind_eq_error _ _ r).1 ((finish_eq_fault _ r).1 h) with hoffset | ⟨_, -, ⟨⟩⟩
    obtain ⟨ht, rfl⟩ := (offsetOperand_eq_error s.params t r).1 hoffset
    exact .inr ⟨t, ht, .inl ⟨j, v, rfl⟩⟩
  | rdov j t =>
    rcases (bind_eq_error _ _ r).1 ((finish_eq_fault _ r).1 h) with hoffset | ⟨off, -, hread⟩
    · obtain ⟨ht, rfl⟩ := (offsetOperand_eq_error s.params t r).1 hoffset
      exact .inr ⟨t, ht, .inr ⟨j, rfl⟩⟩
    · obtain rfl := respond_fault_reason s _ r hread
      exact .inr (.inr (.inr (.inl ⟨j, t, rfl⟩)))
  | xprod =>
    rcases crossProductStage_fault_reason s r hs ((finish_eq_fault _ r).1 h) with rfl | rfl | rfl | rfl
    · exact .inr (.inr (.inr (.inl rfl)))
    iterate 3 exact .inl rfl
  | rdic j =>
    obtain rfl := respond_fault_reason s _ r ((finish_eq_fault _ r).1 h)
    exact .inr (.inr (.inr (.inr (.inl ⟨j, rfl⟩))))
  | rdoc j =>
    obtain rfl := respond_fault_reason s _ r ((finish_eq_fault _ r).1 h)
    exact .inr (.inr (.inr (.inr (.inr ⟨j, rfl⟩))))
  | interp =>
    rcases interpolationStage_fault_reason s r hs ((finish_eq_fault _ r).1 h) with ⟨-, rfl⟩ | ⟨-, rfl⟩ | rfl
    · exact .inr (.inr (.inr (.inr (.inl rfl))))
    · exact rfl
    · exact .inr (.inl rfl)
  | transform =>
    rcases both_stages_fault_reason s r hs ((finish_eq_fault _ r).1 h) with rfl | rfl | rfl | rfl
    · exact .inr (.inr (.inr (.inr (.inr rfl))))
    · exact .inr (.inr (.inl rfl))
    iterate 2 exact .inr rfl

/-! #### One context on a machine of its own (60_exceptions.md R195) -/

/-- The words for one port, as the words of a machine that has this port alone. -/
def wordsFor (port : Nat) (q : List (Nat × Word)) : List (Nat × Word) :=
  (q.filter (·.1 == port)).map fun c => (0, c.2)

theorem alone_eq (s : State) (port : Nat) (k : Context) :
    s.alone port k = withSurroundings [] [] (wordsFor port s.issue) (s.withCtx k) := rfl

theorem wordsFor_append (port : Nat) (p q : List (Nat × Word)) :
    wordsFor port (p ++ q) = wordsFor port p ++ wordsFor port q := by
  simp [wordsFor]

theorem wordsFor_cons_same (port : Nat) (w : Word) (q : List (Nat × Word)) :
    wordsFor port ((port, w) :: q) = (0, w) :: wordsFor port q := by
  simp [wordsFor]

theorem wordsFor_cons_other (port p : Nat) (w : Word) (q : List (Nat × Word)) (h : p ≠ port) :
    wordsFor port ((p, w) :: q) = wordsFor port q := by
  simp [wordsFor, h]

theorem wordsFor_eq_nil (port : Nat) (q : List (Nat × Word)) (h : ∀ c ∈ q, c.1 ≠ port) : wordsFor port q = [] := by
  simpa [wordsFor] using h

/-- Taking a word of another port takes none of the port's own. -/
theorem wordsFor_take_other (port p : Nat) (w : Word) (pre post : List (Nat × Word)) (h : p ≠ port) :
    wordsFor port (pre ++ (p, w) :: post) = wordsFor port (pre ++ post) := by
  rw [wordsFor_append, wordsFor_append, wordsFor_cons_other port p w post h]

/-- Taking the first word of a port that goes on, from behind the words of stopped ports, takes its own first word. -/
theorem wordsFor_take_same (s : State) (port : Nat) (w : Word) (pre post : List (Nat × Word))
    (hpre : ∀ c ∈ pre, s.Stopped c.1) (hrun : s.Running port) :
    wordsFor port (pre ++ (port, w) :: post) = (0, w) :: wordsFor port (pre ++ post) := by
  have hnil : wordsFor port pre = [] := wordsFor_eq_nil port pre fun c hc heq => by
    obtain ⟨k, r, hk, hr⟩ := hpre c hc
    exact not_running_of_fault s port k r (heq ▸ hk) hr hrun
  rw [wordsFor_append, wordsFor_append, hnil, wordsFor_cons_same, List.nil_append, List.nil_append]

/-- A machine of one context that goes on performs its first word. -/
theorem step_single (s : State) (w : Word) (q : List (Nat × Word)) (hrun : s.ctx.fault = none) :
    step (withSurroundings [] [] ((0, w) :: q) s) =
      conclude (withSurroundings [] [] q s) (mapNext (withSurroundings [] [] q) (execWord w s)) := by
  rw [← execWord_withSurroundings]
  refine step_of_present _ _ w ?_
  simp [State.present, takeIssued, State.isFaulted, State.select, State.contexts, withSurroundings, hrun]

/-- A machine of one context stops when its context does. -/
theorem stopContext_single (s : State) (q : List (Nat × Word)) (r : Fault) :
    (withSurroundings [] [] q s).stopContext r = .fault r := by
  refine stopContext_of_none_running _ r fun p hp => ?_
  rintro ⟨k, hk, -⟩
  simp only [State.contexts, withSurroundings, List.nil_append, List.length_nil] at hk hp
  rw [List.getElem?_eq_none (by simp; omega)] at hk
  cases hk

/-- What the machine alone does when the whole machine takes a step from `s` to `t`, by the context `d` that the port
then has: nothing, or the same step, while `d` goes on; the fault of `d`, if `d` has stopped. -/
def Follows (s t : State) (port : Nat) (c d : Context) : Prop :=
  (d.fault = none ∧ (t.alone port d = s.alone port c ∨ step (s.alone port c) = .next (t.alone port d))) ∨
  ∃ r, d.fault = some r ∧ step (s.alone port c) = .fault r

/-- A step for another port is no step of the machine alone. -/
theorem alone_of_other_port (s s' t : State) (pre post : List (Nat × Word)) (port p : Nat) (w : Word) (c : Context)
    (ht : s.TRDY = true) (hstep : step s = .next t) (hq : s.issue = pre ++ (p, w) :: post) (hne : p ≠ port)
    (hserves : s.Serves s' p (pre ++ post)) (hkeep : KeepsOthers s' t) : t.alone port c = s.alone port c := by
  obtain ⟨htrdy, hmult, hinvt⟩ := tablesNeverChangeOnceReady.1 s t hstep ht
  have hwords : wordsFor port t.issue = wordsFor port s.issue := by
    rw [hkeep.issue, hserves.issue, hq, wordsFor_take_other port p w pre post hne]
  simp only [alone_eq, withSurroundings, State.withCtx, hwords, hkeep.params, hserves.params, htrdy, ht, hmult, hinvt]

/-- Serving the port leaves the machine alone with the context served and the words behind the one taken. -/
theorem alone_of_serves (s s' : State) (pre post : List (Nat × Word)) (port : Nat) (w : Word)
    (hq : s.issue = pre ++ (port, w) :: post) (hpre : ∀ c ∈ pre, s.Stopped c.1) (hrun : s.Running port)
    (hserves : s.Serves s' port (pre ++ post)) :
    s.alone port s'.ctx = withSurroundings [] [] ((0, w) :: wordsFor port (pre ++ post)) s' := by
  simp only [alone_eq, withSurroundings, State.withCtx, hq, wordsFor_take_same s port w pre post hpre hrun,
    hserves.params, hserves.mult, hserves.invt, hserves.trdy]

/-- The word of the port does on the machine alone what it does on the whole machine. -/
theorem follows_of_own_port (s s' t : State) (pre post : List (Nat × Word)) (port : Nat) (w : Word)
    (hq : s.issue = pre ++ (port, w) :: post) (hpre : ∀ c ∈ pre, s.Stopped c.1) (hrun : s.Running port)
    (hserves : s.Serves s' port (pre ++ post)) (hfault : s'.ctx.fault = none)
    (h : conclude s' (execWord w s') = .next t) : Follows s t port s'.ctx t.ctx := by
  have halone := step_single s' w (wordsFor port (pre ++ post)) hfault
  rw [← alone_of_serves s s' pre post port w hq hpre hrun hserves] at halone
  have hissue : t.issue = pre ++ post := (conclude_keepsOthers w s' t h).issue.trans hserves.issue
  rcases conclude_eq_next s' t _ h with hnext | ⟨r, hr, rfl⟩
  · obtain ⟨i, -, hexec⟩ := execWord_eq_next w s' t hnext
    rw [hnext, ← hissue] at halone
    exact .inl ⟨(exec_keeps_fault i s' t hexec).trans hfault, .inr halone⟩
  · rw [hr] at halone
    exact .inr ⟨r, rfl, halone.trans (stopContext_single s' _ r)⟩

/-- One step of the whole machine, as the machine of one port sees it. -/
theorem step_follows (s t : State) (port : Nat) (c : Context) (ht : s.TRDY = true) (h : step s = .next t)
    (hc : s.contexts[port]? = some c) (hfault : c.fault = none) :
    ∃ d, t.contexts[port]? = some d ∧ Follows s t port c d := by
  rcases step_serves s t h with rfl | ⟨pre, p, w, post, s', hq, hpre, hrun, hserves, hconclude⟩
  · exact ⟨c, hc, .inl ⟨hfault, .inl rfl⟩⟩
  have hkeep := conclude_keepsOthers w s' t hconclude
  by_cases hp : p = port
  · subst hp
    obtain rfl : s'.ctx = c := Option.some.inj (hserves.served.symm.trans hc)
    exact ⟨t.ctx, hserves.place ▸ hkeep.contexts_served,
      follows_of_own_port s s' t pre post p w hq hpre hrun hserves hfault hconclude⟩
  · obtain ⟨-, hother⟩ := step_keeps_other_contexts s s' t p _ hserves hkeep
    exact ⟨c, (hother port (Ne.symm hp)).trans hc,
      .inl ⟨hfault, .inl (alone_of_other_port s s' t pre post port p w c ht h hq hp hserves hkeep)⟩⟩

/-! #### Runs -/

theorem core_step (s : State) : Sys2Proof.core.step s = step s := rfl

theorem run_succ (k : Nat) (s u : State) (h : step s = .next u) :
    Sys2Proof.core.run (k + 1) s = Sys2Proof.core.run k u := by
  simp only [Host.Core.run, (core_step s).trans h]

theorem run_succ_of_fault (k : Nat) (s : State) (r : Fault) (h : step s = .fault r) :
    Sys2Proof.core.run (k + 1) s = .fault r := by
  simp only [Host.Core.run, (core_step s).trans h]

theorem run_succ_of_refused (k : Nat) (s : State) (r : Refusal) (h : step s = .refused r) :
    Sys2Proof.core.run (k + 1) s = .refused r := by
  simp only [Host.Core.run, (core_step s).trans h]

theorem eq_of_runsTo_zero (s t : State) (h : RunsTo 0 s t) : s = t := Host.Outcome.next.inj h

theorem exists_step_of_runsTo_succ (k : Nat) (s t : State) (h : RunsTo (k + 1) s t) :
    ∃ u, step s = .next u ∧ RunsTo k u t := by
  cases hstep : step s with
  | next u => exact ⟨u, rfl, (run_succ k s u hstep).symm.trans h⟩
  | fault r => cases (run_succ_of_fault k s r hstep).symm.trans h
  | refused r => cases (run_succ_of_refused k s r hstep).symm.trans h

/-- A stopped context stays as it is along a run (60_exceptions.md R184). -/
theorem runsTo_keeps_stopped (k : Nat) (s t : State) (port : Nat) (c : Context) (r : Fault) (h : RunsTo k s t)
    (hc : s.contexts[port]? = some c) (hr : c.fault = some r) : t.contexts[port]? = some c := by
  induction k generalizing s with
  | zero =>
    obtain rfl := eq_of_runsTo_zero s t h
    exact hc
  | succ k ih =>
    obtain ⟨u, hstep, hrun⟩ := exists_step_of_runsTo_succ k s t h
    exact ih u hrun (faultIsNeverCleared s u port c r hstep hc hr)

/-- An outcome of a run from `b` is one of a run from `a` too when `b` is `a` or the next state after it. -/
theorem exists_run_of_step (k : Nat) (a b : State) (o : Host.Outcome State Fault Refusal)
    (hstep : b = a ∨ step a = .next b) (h : ∃ k' ≤ k, Sys2Proof.core.run k' b = o) :
    ∃ k' ≤ k + 1, Sys2Proof.core.run k' a = o := by
  obtain ⟨k', hle, hrun⟩ := h
  rcases hstep with rfl | hstep
  · exact ⟨k', by omega, hrun⟩
  · exact ⟨k' + 1, by omega, (run_succ k' a b hstep).trans hrun⟩

/-- Settles O49, by induction on the run: each step is followed by the machine alone until its context stops, and a
stopped context never changes again. -/
theorem eachContextRunsAsAlone : Obligations.EachContextRunsAsAlone := by
  intro k
  induction k with
  | zero =>
    intro s t port c d _ h hc hfault hd
    obtain rfl := eq_of_runsTo_zero s t h
    obtain rfl : c = d := Option.some.inj (hc.symm.trans hd)
    exact ⟨fun _ => ⟨0, le_rfl, rfl⟩, fun r hr => absurd (hfault.symm.trans hr) nofun⟩
  | succ k ih =>
    intro s t port c d ht h hc hfault hd
    obtain ⟨u, hstep, hrun⟩ := exists_step_of_runsTo_succ k s t h
    obtain ⟨e, he, ⟨hgoes, halone⟩ | ⟨r, hr, halone⟩⟩ := step_follows s u port c ht hstep hc hfault
    · obtain ⟨htrdy, -⟩ := tablesNeverChangeOnceReady.1 s u hstep ht
      obtain ⟨hend, hstop⟩ := ih u t port e d htrdy hrun he hgoes hd
      exact ⟨fun hnone => exists_run_of_step k _ _ _ halone (hend hnone),
        fun r hr => exists_run_of_step k _ _ _ halone (hstop r hr)⟩
    · obtain rfl : e = d := Option.some.inj ((runsTo_keeps_stopped k u t port e r hrun he hr).symm.trans hd)
      refine ⟨fun hnone => absurd (hr.symm.trans hnone) nofun, fun r' hr' => ?_⟩
      obtain rfl : r = r' := Option.some.inj (hr.symm.trans hr')
      exact ⟨1, by omega, run_succ_of_fault 0 _ r halone⟩

end Sys2Proof.Proofs
